-- ==== Sys2Proof/Word.lean ====
section
/-! DEFINITION. The word types of the core (spec 00_scope.md R7, R9; 30_encoding.md R71). -/

namespace Sys2Proof

/-- A byte of either memory. -/
abbrev Byte := BitVec 8

/-- `XLEN = 32`: a register, the pc, an immediate, an instruction word (R7, R9). -/
abbrev Word := BitVec 32

/-- A register index field of an instruction: `rd`, `rs1` or `rs2` (R71). -/
abbrev RegIdx := BitVec 5

/-- The seven-bit major opcode field (R71). -/
abbrev Opcode := BitVec 7

/-- The `funct3` field (R71). -/
abbrev Funct3 := BitVec 3

/-- The `funct7` field (R71). -/
abbrev Funct7 := BitVec 7

end Sys2Proof
end

