-- ==== Sys2Proof/Machine/Alu.lean ====
section
/-! DEFINITION. The ALU and its six primitive operations (spec 40_datapath.md R124, R127). -/

namespace Sys2Proof.Machine

/-- `alu_op`, an enumeration of six (R124, R127). -/
inductive AluOp where
  | and | or | add | sub | sltu | sra
  deriving DecidableEq, Repr

/-- The four-bit rendering of `alu_op` (R127, D16). DESIGN CHOICE of the spec; nothing observes it (log 9). -/
def AluOp.code : AluOp → BitVec 4
  | .and => 0b0000
  | .or => 0b0001
  | .add => 0b0010
  | .sub => 0b0110
  | .sltu => 0b0111
  | .sra => 0b1000

/-- `alu_out` (R124): sums and differences wrap; the comparison is unsigned; a shift uses the low five bits of `b`. -/
def alu (op : AluOp) (a b : Word) : Word :=
  match op with
  | .and => a &&& b
  | .or => a ||| b
  | .add => a + b
  | .sub => a - b
  | .sltu => if a.ult b then 1#32 else 0#32
  | .sra => a.sshiftRight (b &&& 0x1F#32).toNat

end Sys2Proof.Machine
end

