-- ==== Sys2Proof/Machine/Bytes.lean ====
section
/-! DEFINITION. Byte order, decided once: little-endian for data and for fetch (spec 20_memory.md R40, R41). -/

namespace Sys2Proof.Machine

/-- The word whose bytes, least significant first, are `bs` (R40): byte `k` is bits `[8k+7:8k]`. -/
def leWord : List Byte → Word
  | [] => 0
  | b :: bs => (leWord bs <<< 8) ||| b.setWidth 32

/-- The low `n` bytes of `v`, least significant first (R40, R47). -/
def leBytes : Nat → Word → List Byte
  | 0, _ => []
  | n + 1, v => v.setWidth 8 :: leBytes n (v >>> 8)

end Sys2Proof.Machine
end

