-- ==== Sys2Proof/Machine/Codes.lean ====
section
/-! DEFINITION. The numeric opcodes and function codes (spec 30_encoding.md R84 to R88).
They stand here, not in Decode, because WellFormed and the control table read them too.
The numbers are the spec's RV32I values, which it marks as general knowledge (D1): PRESUMED by the spec, unsafe (log 1). -/

namespace Sys2Proof.Machine

/-- The seven recognised opcodes (R84). -/
def opOP : Opcode := 0b0110011
def opOPIMM : Opcode := 0b0010011
def opLUI : Opcode := 0b0110111
def opLOAD : Opcode := 0b0000011
def opSTORE : Opcode := 0b0100011
def opBRANCH : Opcode := 0b1100011
def opJALR : Opcode := 0b1100111

/-- Whether an opcode is one of the seven of R84. -/
def recognised (op : Opcode) : Bool :=
  op == opOP || op == opOPIMM || op == opLUI || op == opLOAD || op == opSTORE || op == opBRANCH || op == opJALR

/-- Function codes under OP (R85). -/
def f7ADD : Funct7 := 0b0000000
def f3ADD : Funct3 := 0b000
def f7SUB : Funct7 := 0b0100000
def f3SUB : Funct3 := 0b000
def f7SRA : Funct7 := 0b0100000
def f3SRA : Funct3 := 0b101
def f7AND : Funct7 := 0b0000000
def f3AND : Funct3 := 0b111

/-- Function codes under OP-IMM (R86). -/
def f3ADDI : Funct3 := 0b000
def f3SLTIU : Funct3 := 0b011
def f3ORI : Funct3 := 0b110

/-- Function codes under LOAD (R87). -/
def f3LB : Funct3 := 0b000
def f3LW : Funct3 := 0b010
def f3LBU : Funct3 := 0b100

/-- Function codes under STORE (R87). -/
def f3SH : Funct3 := 0b001
def f3SW : Funct3 := 0b010

/-- Whether the pair of function codes is listed under OP (R85, R203). -/
def listedOp (f7 : Funct7) (f3 : Funct3) : Bool :=
  (f7 == f7ADD && f3 == f3ADD) || (f7 == f7SUB && f3 == f3SUB) || (f7 == f7SRA && f3 == f3SRA) || (f7 == f7AND && f3 == f3AND)

/-- Whether `funct3` is listed under OP-IMM (R86, R203). -/
def listedOpimm (f3 : Funct3) : Bool := f3 == f3ADDI || f3 == f3SLTIU || f3 == f3ORI

/-- Whether `funct3` is listed under LOAD (R87, R203). -/
def listedLoad (f3 : Funct3) : Bool := f3 == f3LB || f3 == f3LW || f3 == f3LBU

/-- Whether `funct3` is listed under STORE (R87, R203). -/
def listedStore (f3 : Funct3) : Bool := f3 == f3SH || f3 == f3SW

end Sys2Proof.Machine
end

