-- ==== Sys2Proof/Syntax.lean ====
section
/-! DEFINITION. The instructions: one constructor per row of spec/opcode_table.json.
Operands are the encoded fields; immediates are kept at their encoded width and extended by `Machine/Operands.lean`. -/

namespace Sys2Proof

inductive Instr where
  /-- ADD (R160) -/
  | add (rd rs1 rs2 : RegIdx)
  /-- SUB (R161) -/
  | sub (rd rs1 rs2 : RegIdx)
  /-- SRA (R162) -/
  | sra (rd rs1 rs2 : RegIdx)
  /-- AND (R163) -/
  | and (rd rs1 rs2 : RegIdx)
  /-- ADDI (R170) -/
  | addi (rd rs1 : RegIdx) (imm : BitVec 12)
  /-- SLTIU (R172) -/
  | sltiu (rd rs1 : RegIdx) (imm : BitVec 12)
  /-- ORI (R171) -/
  | ori (rd rs1 : RegIdx) (imm : BitVec 12)
  /-- LUI (R173): `imm20` goes to bits 31:12 -/
  | lui (rd : RegIdx) (imm20 : BitVec 20)
  /-- LB (R181) -/
  | lb (rd rs1 : RegIdx) (imm : BitVec 12)
  /-- LW (R180) -/
  | lw (rd rs1 : RegIdx) (imm : BitVec 12)
  /-- LBU (R182) -/
  | lbu (rd rs1 : RegIdx) (imm : BitVec 12)
  /-- SH (R184): `rs2` is the data register, `rs1` the base -/
  | sh (rs2 rs1 : RegIdx) (imm : BitVec 12)
  /-- SW (R183): `rs2` is the data register, `rs1` the base -/
  | sw (rs2 rs1 : RegIdx) (imm : BitVec 12)
  /-- BNE (R190): a byte offset, even; `funct3` is in the word and is not looked at (R88) -/
  | bne (rs1 rs2 : RegIdx) (offset : BitVec 13) (funct3 : Funct3)
  /-- JALR (R191): `funct3` is in the word and is not looked at (R88) -/
  | jalr (rd rs1 : RegIdx) (imm : BitVec 12) (funct3 : Funct3)
  /-- HALT, the all-zero sentinel word (R200) -/
  | halt
  /-- A word with opcode OP and an unlisted pair of function codes (R203) -/
  | unsupportedOp (funct7 : Funct7) (funct3 : Funct3) (rd rs1 rs2 : RegIdx)
  /-- A word with opcode OP-IMM and an unlisted `funct3` (R203) -/
  | unsupportedOpimm (funct3 : Funct3) (rd rs1 : RegIdx) (imm : BitVec 12)
  /-- A word with opcode LOAD and an unlisted `funct3` (R203) -/
  | unsupportedLoad (funct3 : Funct3) (rd rs1 : RegIdx) (imm : BitVec 12)
  /-- A word with opcode STORE and an unlisted `funct3` (R203) -/
  | unsupportedStore (funct3 : Funct3) (rs2 rs1 : RegIdx) (imm : BitVec 12)
  /-- A non-zero word whose opcode is none of the seven (R202); `rest` is bits 31:7 -/
  | unrecognised (opcode : Opcode) (rest : BitVec 25)
  deriving DecidableEq, Repr

end Sys2Proof
end

