-- ==== Sys2Proof/WellFormed.lean ====
section
/-! DEFINITION. Which terms of `Instr` are instructions: exactly those that some 32-bit word decodes to. -/

namespace Sys2Proof

open Sys2Proof.Machine

/-- The operands an encoding can carry. A branch offset is even (R80); an UNSUPPORTED row's function code is one the spec
does not list (R203); an UNRECOGNISED word has none of the seven opcodes and is not the halt sentinel (R89, R202). -/
def Instr.wf : Instr → Bool
  | .add _ _ _ => true
  | .sub _ _ _ => true
  | .sra _ _ _ => true
  | .and _ _ _ => true
  | .addi _ _ _ => true
  | .sltiu _ _ _ => true
  | .ori _ _ _ => true
  | .lui _ _ => true
  | .lb _ _ _ => true
  | .lw _ _ _ => true
  | .lbu _ _ _ => true
  | .sh _ _ _ => true
  | .sw _ _ _ => true
  | .bne _ _ offset _ => !offset.getLsbD 0
  | .jalr _ _ _ _ => true
  | .halt => true
  | .unsupportedOp f7 f3 _ _ _ => !listedOp f7 f3
  | .unsupportedOpimm f3 _ _ _ => !listedOpimm f3
  | .unsupportedLoad f3 _ _ _ => !listedLoad f3
  | .unsupportedStore f3 _ _ _ => !listedStore f3
  | .unrecognised op rest => !recognised op && !(op == 0#7 && rest == 0#25)

end Sys2Proof
end

