-- ==== Sys2Proof/Decode.lean ====
section
/-! DEFINITION. The decoder, total on any bytes, and after it the encoder (spec 30_encoding.md R70 to R93). -/

namespace Sys2Proof

open Sys2Proof.Machine

/-- Field extraction, the same for every word (R71). -/
def opcodeOf (w : Word) : Opcode := w.extractLsb' 0 7
def rdOf (w : Word) : RegIdx := w.extractLsb' 7 5
def funct3Of (w : Word) : Funct3 := w.extractLsb' 12 3
def rs1Of (w : Word) : RegIdx := w.extractLsb' 15 5
def rs2Of (w : Word) : RegIdx := w.extractLsb' 20 5
def funct7Of (w : Word) : Funct7 := w.extractLsb' 25 7

/-- The immediate bits of each format, before extension: I (R73, R78), S (R74, R79), B (R75, R80), U (R76, R81). -/
def immIOf (w : Word) : BitVec 12 := w.extractLsb' 20 12
def immSOf (w : Word) : BitVec 12 := w.extractLsb' 25 7 ++ w.extractLsb' 7 5
def immBOf (w : Word) : BitVec 13 :=
  w.extractLsb' 31 1 ++ w.extractLsb' 7 1 ++ w.extractLsb' 25 6 ++ w.extractLsb' 8 4 ++ 0#1
def immUOf (w : Word) : BitVec 20 := w.extractLsb' 12 20

/-- Opcode OP: both function codes select, exactly (R85). -/
def decodeOp (w : Word) : Instr :=
  if funct7Of w = f7ADD ∧ funct3Of w = f3ADD then .add (rdOf w) (rs1Of w) (rs2Of w)
  else if funct7Of w = f7SUB ∧ funct3Of w = f3SUB then .sub (rdOf w) (rs1Of w) (rs2Of w)
  else if funct7Of w = f7SRA ∧ funct3Of w = f3SRA then .sra (rdOf w) (rs1Of w) (rs2Of w)
  else if funct7Of w = f7AND ∧ funct3Of w = f3AND then .and (rdOf w) (rs1Of w) (rs2Of w)
  else .unsupportedOp (funct7Of w) (funct3Of w) (rdOf w) (rs1Of w) (rs2Of w)

/-- Opcode OP-IMM: `funct3` alone selects; bits 31:25 are immediate (R86). -/
def decodeOpimm (w : Word) : Instr :=
  if funct3Of w = f3ADDI then .addi (rdOf w) (rs1Of w) (immIOf w)
  else if funct3Of w = f3SLTIU then .sltiu (rdOf w) (rs1Of w) (immIOf w)
  else if funct3Of w = f3ORI then .ori (rdOf w) (rs1Of w) (immIOf w)
  else .unsupportedOpimm (funct3Of w) (rdOf w) (rs1Of w) (immIOf w)

/-- Opcode LOAD: `funct3` selects width and extension (R87). -/
def decodeLoad (w : Word) : Instr :=
  if funct3Of w = f3LB then .lb (rdOf w) (rs1Of w) (immIOf w)
  else if funct3Of w = f3LW then .lw (rdOf w) (rs1Of w) (immIOf w)
  else if funct3Of w = f3LBU then .lbu (rdOf w) (rs1Of w) (immIOf w)
  else .unsupportedLoad (funct3Of w) (rdOf w) (rs1Of w) (immIOf w)

/-- Opcode STORE: `funct3` selects the width (R87). -/
def decodeStore (w : Word) : Instr :=
  if funct3Of w = f3SH then .sh (rs2Of w) (rs1Of w) (immSOf w)
  else if funct3Of w = f3SW then .sw (rs2Of w) (rs1Of w) (immSOf w)
  else .unsupportedStore (funct3Of w) (rs2Of w) (rs1Of w) (immSOf w)

/-- The decoder of one word, in the order of R89: the whole-word halt test, the seven opcodes, anything else. -/
def decodeWord (w : Word) : Instr :=
  if w = 0#32 then .halt
  else if opcodeOf w = opOP then decodeOp w
  else if opcodeOf w = opOPIMM then decodeOpimm w
  else if opcodeOf w = opLUI then .lui (rdOf w) (immUOf w)
  else if opcodeOf w = opLOAD then decodeLoad w
  else if opcodeOf w = opSTORE then decodeStore w
  else if opcodeOf w = opBRANCH then .bne (rs1Of w) (rs2Of w) (immBOf w) (funct3Of w)
  else if opcodeOf w = opJALR then .jalr (rdOf w) (rs1Of w) (immIOf w) (funct3Of w)
  else .unrecognised (opcodeOf w) (w.extractLsb' 7 25)

/-- Why a list of bytes holds no instruction. -/
inductive DecodeError where
  /-- Fewer than the four bytes every instruction has (R70, R93). Safe: the fetch always gives four. -/
  | truncated
  deriving DecidableEq, Repr

/-- The decoder of a byte stream: the first instruction and the bytes after it (R70). -/
def decode : List Byte → Except DecodeError (Instr × List Byte)
  | b0 :: b1 :: b2 :: b3 :: rest => .ok (decodeWord (leWord [b0, b1, b2, b3]), rest)
  | _ => .error .truncated

/-- R-format layout (R72). -/
def packR (f7 : Funct7) (rs2 rs1 : RegIdx) (f3 : Funct3) (rd : RegIdx) (op : Opcode) : Word :=
  f7 ++ rs2 ++ rs1 ++ f3 ++ rd ++ op

/-- I-format layout (R73). -/
def packI (imm : BitVec 12) (rs1 : RegIdx) (f3 : Funct3) (rd : RegIdx) (op : Opcode) : Word :=
  imm ++ rs1 ++ f3 ++ rd ++ op

/-- S-format layout (R74). -/
def packS (imm : BitVec 12) (rs2 rs1 : RegIdx) (f3 : Funct3) (op : Opcode) : Word :=
  imm.extractLsb' 5 7 ++ rs2 ++ rs1 ++ f3 ++ imm.extractLsb' 0 5 ++ op

/-- B-format layout (R75); `imm[0]` is not encoded. -/
def packB (imm : BitVec 13) (rs2 rs1 : RegIdx) (f3 : Funct3) (op : Opcode) : Word :=
  imm.extractLsb' 12 1 ++ imm.extractLsb' 5 6 ++ rs2 ++ rs1 ++ f3 ++ imm.extractLsb' 1 4 ++ imm.extractLsb' 11 1 ++ op

/-- U-format layout (R76). -/
def packU (imm : BitVec 20) (rd : RegIdx) (op : Opcode) : Word :=
  imm ++ rd ++ op

/-- The word of an instruction. -/
def encode : Instr → Word
  | .add rd rs1 rs2 => packR f7ADD rs2 rs1 f3ADD rd opOP
  | .sub rd rs1 rs2 => packR f7SUB rs2 rs1 f3SUB rd opOP
  | .sra rd rs1 rs2 => packR f7SRA rs2 rs1 f3SRA rd opOP
  | .and rd rs1 rs2 => packR f7AND rs2 rs1 f3AND rd opOP
  | .addi rd rs1 imm => packI imm rs1 f3ADDI rd opOPIMM
  | .sltiu rd rs1 imm => packI imm rs1 f3SLTIU rd opOPIMM
  | .ori rd rs1 imm => packI imm rs1 f3ORI rd opOPIMM
  | .lui rd imm20 => packU imm20 rd opLUI
  | .lb rd rs1 imm => packI imm rs1 f3LB rd opLOAD
  | .lw rd rs1 imm => packI imm rs1 f3LW rd opLOAD
  | .lbu rd rs1 imm => packI imm rs1 f3LBU rd opLOAD
  | .sh rs2 rs1 imm => packS imm rs2 rs1 f3SH opSTORE
  | .sw rs2 rs1 imm => packS imm rs2 rs1 f3SW opSTORE
  | .bne rs1 rs2 offset f3 => packB offset rs2 rs1 f3 opBRANCH
  | .jalr rd rs1 imm f3 => packI imm rs1 f3 rd opJALR
  | .halt => 0
  | .unsupportedOp f7 f3 rd rs1 rs2 => packR f7 rs2 rs1 f3 rd opOP
  | .unsupportedOpimm f3 rd rs1 imm => packI imm rs1 f3 rd opOPIMM
  | .unsupportedLoad f3 rd rs1 imm => packI imm rs1 f3 rd opLOAD
  | .unsupportedStore f3 rs2 rs1 imm => packS imm rs2 rs1 f3 opSTORE
  | .unrecognised op rest => rest ++ op

/-- The four bytes of an instruction as instruction memory holds them (R41, R242). -/
def encodeBytes (i : Instr) : List Byte := leBytes 4 (encode i)

/-- The `nbits` low bits of `w` as one instruction word; every instruction is one word (R70). -/
def tableWord (nbits w : Nat) : Word := BitVec.ofNat 32 (w % 2 ^ nbits)

/-- The instruction the decoder reads from the bytes of the word `w` (none for a number wider than one word, R93). -/
def decodeTableWord (nbits w : Nat) : Option Instr :=
  if w % 2 ^ nbits < 2 ^ 32 then
    match decode (leBytes 4 (tableWord nbits w)) with
    | .ok (i, _) => some i
    | .error _ => none
  else none

/-- A row of spec/opcode_table.json: a word belongs to it when its bits under `mask` are `pattern`
and no row of a smaller priority number matches. -/
structure TableRow where
  mnemonic : String
  pattern : Word
  mask : Word
  priority : Nat
  deriving DecidableEq, Repr

/-- spec/opcode_table.json, transcribed: its `match`, `mask` and `priority` columns. -/
def opcodeTable : List TableRow :=
  [⟨"ADD", 0x00000033, 0xFE00707F, 1⟩, ⟨"SUB", 0x40000033, 0xFE00707F, 1⟩, ⟨"SRA", 0x40005033, 0xFE00707F, 1⟩,
   ⟨"AND", 0x00007033, 0xFE00707F, 1⟩, ⟨"ADDI", 0x00000013, 0x0000707F, 1⟩, ⟨"SLTIU", 0x00003013, 0x0000707F, 1⟩,
   ⟨"ORI", 0x00006013, 0x0000707F, 1⟩, ⟨"LUI", 0x00000037, 0x0000007F, 1⟩, ⟨"LB", 0x00000003, 0x0000707F, 1⟩,
   ⟨"LW", 0x00002003, 0x0000707F, 1⟩, ⟨"LBU", 0x00004003, 0x0000707F, 1⟩, ⟨"SH", 0x00001023, 0x0000707F, 1⟩,
   ⟨"SW", 0x00002023, 0x0000707F, 1⟩, ⟨"BNE", 0x00000063, 0x0000007F, 1⟩, ⟨"JALR", 0x00000067, 0x0000007F, 1⟩,
   ⟨"HALT", 0x00000000, 0xFFFFFFFF, 0⟩, ⟨"UNSUPPORTED_OP", 0x00000033, 0x0000007F, 2⟩,
   ⟨"UNSUPPORTED_OPIMM", 0x00000013, 0x0000007F, 2⟩, ⟨"UNSUPPORTED_LOAD", 0x00000003, 0x0000007F, 2⟩,
   ⟨"UNSUPPORTED_STORE", 0x00000023, 0x0000007F, 2⟩, ⟨"UNRECOGNISED", 0x00000000, 0x00000000, 3⟩]

/-- Whether the bits of `w` under the row's mask are the row's pattern. -/
def TableRow.hits (r : TableRow) (w : Word) : Bool := w &&& r.mask == r.pattern

/-- Whether `r` is the row the table gives the word: it matches, and no matching row has a smaller priority number. -/
def TableRow.selected (r : TableRow) (w : Word) : Bool :=
  r.hits w && opcodeTable.all fun r' => !r'.hits w || r.priority ≤ r'.priority

/-- The mnemonic of an instruction, as spec/opcode_table.json spells it. -/
def Instr.mnemonic : Instr → String
  | .add _ _ _ => "ADD"
  | .sub _ _ _ => "SUB"
  | .sra _ _ _ => "SRA"
  | .and _ _ _ => "AND"
  | .addi _ _ _ => "ADDI"
  | .sltiu _ _ _ => "SLTIU"
  | .ori _ _ _ => "ORI"
  | .lui _ _ => "LUI"
  | .lb _ _ _ => "LB"
  | .lw _ _ _ => "LW"
  | .lbu _ _ _ => "LBU"
  | .sh _ _ _ => "SH"
  | .sw _ _ _ => "SW"
  | .bne _ _ _ _ => "BNE"
  | .jalr _ _ _ _ => "JALR"
  | .halt => "HALT"
  | .unsupportedOp _ _ _ _ _ => "UNSUPPORTED_OP"
  | .unsupportedOpimm _ _ _ _ => "UNSUPPORTED_OPIMM"
  | .unsupportedLoad _ _ _ _ => "UNSUPPORTED_LOAD"
  | .unsupportedStore _ _ _ _ => "UNSUPPORTED_STORE"
  | .unrecognised _ _ => "UNRECOGNISED"

end Sys2Proof
end

