-- ==== Sys2Proof/Machine/Operands.lean ====
section
/-! DEFINITION. Operand values: extension, immediates, data addresses
(spec 00_scope.md R10; 30_encoding.md R77 to R83; 20_memory.md R44). -/

namespace Sys2Proof.Machine

/-- `sext_N(v)`: bits `[31:N]` are copies of bit `N-1` (R10, R83). -/
def sext {n : Nat} (v : BitVec n) : Word := v.signExtend 32

/-- `zext_N(v)`: bits `[31:N]` are zero (R10). -/
def zext {n : Nat} (v : BitVec n) : Word := v.zeroExtend 32

/-- The I-immediate (R78). -/
def immI (imm : BitVec 12) : Word := sext imm

/-- The S-immediate (R79). -/
def immS (imm : BitVec 12) : Word := sext imm

/-- The B-immediate, a byte offset (R80). -/
def immB (offset : BitVec 13) : Word := sext offset

/-- The U-immediate: low twelve bits zero (R81). -/
def immU (imm20 : BitVec 20) : Word := imm20 ++ 0#12

/-- The immediate generator, keyed by opcode alone (R77 to R82, R109). -/
def immGen (w : Word) : Word :=
  if opcodeOf w = opOPIMM ∨ opcodeOf w = opLOAD ∨ opcodeOf w = opJALR then immI (immIOf w)
  else if opcodeOf w = opSTORE then immS (immSOf w)
  else if opcodeOf w = opBRANCH then immB (immBOf w)
  else if opcodeOf w = opLUI then immU (immUOf w)
  else 0#32

/-- The address mask: an effective address reduced into a data memory of `size` bytes (R44, R131). -/
def memAddr (size : Nat) (ea : Word) : Nat := (ea &&& BitVec.ofNat 32 (size - 1)).toNat

/-- The indirect-jump target: the sum with bit 0 cleared (R140, R191). -/
def indirectTarget (base imm : Word) : Word := (base + imm) &&& 0xFFFFFFFE#32

end Sys2Proof.Machine
end

