-- ==== Sys2Proof/Config.lean ====
section
/-! DEFINITION. The reference values of the spec's parameters, and what an unlisted byte reads as (spec 00_scope.md R7,
92_eei_decisions.md). The parameters themselves are arguments: `MEM_SIZE` and `IMEM_IMAGE` of `State.construct`, `PC_LIMIT` of
`hostRun`. -/

namespace Sys2Proof.Config

/-- `log2(MEM_SIZE)` in the reference configuration: 4096 bytes in each memory (R7, D6).
`MEM_SIZE` itself is a parameter, the field `memBits` of State (log 2); this is its value at `State.reset`. -/
def referenceMemBits : Nat := 12

/-- What an address that a memory does not list reads as.
Data memory is zero at construction (R36); for instruction memory the value is a DESIGN CHOICE, unsafe (log 4). -/
def unlistedByte : Byte := 0

/-- Reset value of `x[1]` to `x[31]` (R36 by D5). DESIGN CHOICE of the spec, unsafe (log 3). -/
def resetReg : Word := 0

/-- `RESET_PC` (R7, R29 by D4). DESIGN CHOICE of the spec, unsafe (log 3). -/
def resetPc : Word := 0

end Sys2Proof.Config
end

