-- ==== Sys2Proof/Machine/State.lean ====
section
/-! DEFINITION. The state of the core, why a step can stop, and the state after reset (spec 10_state.md R20 to R36). -/

namespace Sys2Proof.Machine

/-- A memory of `MEM_SIZE` bytes (R33): the listed bytes, addresses strictly rising, none equal to `Config.unlistedByte`
(`Memory.wf` in Ops says so). Every other address reads as `Config.unlistedByte`. -/
abbrev Memory := List Host.Cell

/-- The complete architectural state, the tuple `(x, pc, IMem, DMem)` of R20, and beside it the parameter `MEM_SIZE` of the core it
is a state of; nothing else persists (R34).
There is no flag, mode, control, status, accumulator, reservation or exception register (R30 to R32, R34, R210, R220). -/
structure State where
  /-- `log2(MEM_SIZE)`: a parameter (R7), not architectural state. It is fixed at construction and no step changes it (log 2). -/
  memBits : Nat
  /-- The 32 general registers (R21). Slot 0 holds zero and is never written (R20). -/
  x : Vector Word 32
  /-- The byte address of the current instruction in instruction memory (R25). -/
  pc : Word
  /-- Instruction memory, immutable after construction (R33). -/
  imem : Memory
  /-- Data memory (R33). -/
  dmem : Memory
  deriving DecidableEq, Repr

/-- The four reasons of the spec's outcome `Unsupported(reason)` (R91, R203). -/
inductive UnsupportedReason where
  /-- `op_funct`: OP with an unlisted pair of function codes (R121, D9). -/
  | opFunct
  /-- `opimm_funct3`: OP-IMM with an unlisted `funct3` (R122, D10). -/
  | opimmFunct3
  /-- `load_width`: LOAD with an unlisted `funct3` (R134, D11). -/
  | loadWidth
  /-- `store_width`: STORE with an unlisted `funct3` (R134, D11). -/
  | storeWidth
  deriving DecidableEq, Repr

/-- Why the machine stops with a fault. Neither changes any state (R215). -/
inductive Fault where
  /-- The outcome `Unsupported(reason)` (R12, R203): raised by the meanings of UNSUPPORTED_OP, UNSUPPORTED_OPIMM,
  UNSUPPORTED_LOAD, UNSUPPORTED_STORE and by the datapath's selector and width check. Safe (log 6). -/
  | unsupported (reason : UnsupportedReason)
  /-- The outcome `Abort` (R12, R123, R204): raised by the datapath's selector on class 11, which no word reaches. Safe. -/
  | abort
  deriving DecidableEq, Repr

/-- Why the model has no meaning for an instruction. -/
inductive Refusal where
  /-- An instruction whose arm in `exec` has no meaning yet. Safe. No arm of this model raises it. -/
  | notModelled (mnemonic : String)
  deriving DecidableEq, Repr

/-- The core as constructed (R36, R240), in the reference configuration (R7): registers and pc zero (D4, D5; log 3), data memory zero,
and nothing listed in instruction memory, which is the all-zero image (log 4). `State.construct` builds the core from any image. -/
def State.reset : State where
  memBits := Config.referenceMemBits
  x := Vector.replicate 32 Config.resetReg
  pc := Config.resetPc
  imem := []
  dmem := []

/-- `MEM_SIZE`, the bytes in each of the two memories: a power of two (R7, R33, D6). -/
def State.memSize (s : State) : Nat := 2 ^ s.memBits

end Sys2Proof.Machine
end

