-- ==== Sys2Proof/Machine/Ops.lean ====
section
/-! DEFINITION. The named operations over memory and registers, fetch, construction, and what a meaning ends in
(spec 00_scope.md R11; 10_state.md R21, R22; 20_memory.md R44 to R47; 40_datapath.md R135, R144).
The core takes no exception and returns from none (60_exceptions.md R210, R215, R216), so there is no entry operation here:
`unsupported` is the one way an instruction stops. -/

namespace Sys2Proof.Machine

/-- The canonical form: addresses strictly rising, every address inside the memory of `size` bytes (R33), no entry equal to
`Config.unlistedByte`. -/
abbrev Memory.wf (size : Nat) (m : Memory) : Prop :=
  m.Pairwise (fun c d => c.1 < d.1) ∧ ∀ c ∈ m, c.1 < size ∧ c.2 ≠ Config.unlistedByte

/-- The byte at address `a`. -/
def Memory.read : Memory → Nat → Byte
  | [], _ => Config.unlistedByte
  | (b, v) :: m, a => if b = a then v else Memory.read m a

/-- Put a cell where its address belongs in a rising list that does not have the address. -/
def Memory.insertCell (a : Nat) (v : Byte) : Memory → Memory
  | [] => [(a, v)]
  | (b, u) :: m => if a < b then (a, v) :: (b, u) :: m else (b, u) :: Memory.insertCell a v m

/-- Write the byte at address `a`, keeping the canonical form: the address leaves the list, and comes back when its value is
not what an unlisted address reads as. -/
def Memory.write (m : Memory) (a : Nat) (v : Byte) : Memory :=
  let others := m.filter fun c => c.1 != a
  if v = Config.unlistedByte then others else Memory.insertCell a v others

/-- The `n` bytes from address `a` up. -/
def Memory.readBytes (m : Memory) : Nat → Nat → List Byte
  | _, 0 => []
  | a, n + 1 => Memory.read m a :: Memory.readBytes m (a + 1) n

/-- Write the bytes at `a`, `a + 1`, … -/
def Memory.writeBytes : Memory → Nat → List Byte → Memory
  | m, _, [] => m
  | m, a, v :: vs => Memory.writeBytes (Memory.write m a v) (a + 1) vs

/-- `MemRead(addr, n)` in a memory of `size` bytes (R46): no data when the access would run past the end, else the little-endian value. -/
def memRead (size : Nat) (m : Memory) (addr n : Nat) : Option Word :=
  if addr + n > size then none else some (leWord (Memory.readBytes m addr n))

/-- `MemWrite(addr, n, v)` in a memory of `size` bytes (R47): nothing when the access would run past the end,
else the low `n` bytes of `v`. -/
def memWrite (size : Nat) (m : Memory) (addr n : Nat) (v : Word) : Memory :=
  if addr + n > size then m else Memory.writeBytes m addr (leBytes n v)

/-- `Fetch(a)` from a memory of `size` bytes (R45): the four bytes at `a` when `a + 3 < MEM_SIZE` as integers, else the halt sentinel 0. -/
def fetchAt (size : Nat) (m : Memory) (a : Word) : Word :=
  if a.toNat + 3 < size then leWord (Memory.readBytes m a.toNat 4) else 0#32

/-- `instr` (R102). -/
def State.fetch (s : State) : Word := fetchAt s.memSize s.imem s.pc

/-- The core would stop here: the fetch gives the halt sentinel (R103, R200, R201). Not a bit of state (R35). -/
def State.halted (s : State) : Bool := s.fetch == 0#32

/-- `x[i]` (R21): `x[0]` reads zero. -/
def State.readReg (s : State) (i : RegIdx) : Word := if i = 0#5 then 0#32 else s.x.get i.toFin

/-- `x[i] <- v` (R22, R135): a write to `x[0]` is discarded. -/
def State.writeReg (s : State) (i : RegIdx) (v : Word) : State :=
  if i = 0#5 then s else { s with x := s.x.set i.toNat v i.isLt }

/-- `pc <- t` (R11). -/
def State.setPc (s : State) (t : Word) : State := { s with pc := t }

/-- The data memory after a store. -/
def State.setDmem (s : State) (m : Memory) : State := { s with dmem := m }

/-- `DMem[a]` (R11). -/
def State.dataByte (s : State) (a : Nat) : Byte := Memory.read s.dmem a

/-- `IMem[a]` (R11). -/
def State.instrByte (s : State) (a : Nat) : Byte := Memory.read s.imem a

/-- The end of every instruction that falls through (R26, R142). -/
def State.advance (s : State) : State := s.setPc (s.pc + 4#32)

/-- The ending shared by the register-writing instructions that fall through (R135, R142). -/
def retire (rd : RegIdx) (v : Word) (s : State) : Host.Outcome State Fault Refusal :=
  .next (s.writeReg rd v).advance

/-- The one way an instruction stops: the outcome `Unsupported(reason)`, nothing changed (R203, R215). -/
def unsupported (reason : UnsupportedReason) : Host.Outcome State Fault Refusal := .fault (.unsupported reason)

/-- The data index of a base register and a displacement: the one addressing mode (R185). -/
def State.dataAddr (s : State) (rs1 : RegIdx) (imm : Word) : Nat :=
  memAddr s.memSize (alu .add (s.readReg rs1) imm)

/-- `mem_rdata` of a load of `n` bytes: the wire keeps its default 0 when the access is dropped (R46, R130, R133). -/
def State.loadData (s : State) (addr n : Nat) : Word := (memRead s.memSize s.dmem addr n).getD 0#32

/-- The ending shared by the stores (R132). -/
def storeData (addr n : Nat) (v : Word) (s : State) : Host.Outcome State Fault Refusal :=
  .next (s.setDmem (memWrite s.memSize s.dmem addr n v)).advance

/-- The host's read-only accessors while a core runs: `pc`, `x[10]`, `x[11]` (R144). -/
def State.accessors (s : State) : Word × Word × Word := (s.pc, s.readReg 10, s.readReg 11)

/-- Construction, the only reset there is (R240), of a core with the parameter `MEM_SIZE = 2 ^ memBits`, which is at least 4 (R7):
the host supplies exactly `MEM_SIZE` bytes (R242); another parameter or an image of another length is not accepted (U13, U14). -/
def State.construct (memBits : Nat) (image : List Byte) : Option State :=
  if 2 ≤ memBits ∧ image.length = 2 ^ memBits then
    some { State.reset with memBits := memBits, imem := Memory.writeBytes [] 0 image }
  else none

/-- Where an instruction word is placed so that the next step fetches it: at `pc`, or at 0 with the pc moved there when
no fetch at `pc` can return a word (R45). DESIGN CHOICE (log 10). -/
def State.placeAddr (s : State) : Word := if s.pc.toNat + 3 < s.memSize then s.pc else 0#32

/-- The state whose next fetch gives `w`: the loader's doing, not an instruction's (R6, R242; log 10). -/
def State.placeWord (s : State) (w : Word) : State :=
  { s with pc := s.placeAddr, imem := Memory.writeBytes s.imem s.placeAddr.toNat (leBytes 4 w) }

end Sys2Proof.Machine
end

