-- ==== Sys2Proof/Machine/AluImmediate.lean ====
section
/-! DEFINITION. Register-immediate arithmetic and LUI: ADDI, SLTIU, ORI, LUI (spec 42_alu_immediate.md). -/

namespace Sys2Proof.Machine

/-- The shape of the OP-IMM family (R174): the immediate is sign-extended whatever the operation (D20). -/
def aluImmediate (op : AluOp) (rd rs1 : RegIdx) (imm : BitVec 12) (s : State) : Host.Outcome State Fault Refusal :=
  retire rd (alu op (s.readReg rs1) (immI imm)) s

/-- R170 -/
def execAddi (rd rs1 : RegIdx) (imm : BitVec 12) (s : State) : Host.Outcome State Fault Refusal :=
  aluImmediate .add rd rs1 imm s

/-- R172 -/
def execSltiu (rd rs1 : RegIdx) (imm : BitVec 12) (s : State) : Host.Outcome State Fault Refusal :=
  aluImmediate .sltu rd rs1 imm s

/-- R171 -/
def execOri (rd rs1 : RegIdx) (imm : BitVec 12) (s : State) : Host.Outcome State Fault Refusal :=
  aluImmediate .or rd rs1 imm s

/-- R173: the immediate bypasses the ALU (R126). -/
def execLui (rd : RegIdx) (imm20 : BitVec 20) (s : State) : Host.Outcome State Fault Refusal :=
  retire rd (immU imm20) s

end Sys2Proof.Machine
end

