-- ==== Sys2Proof/Machine/AluRegister.lean ====
section
/-! DEFINITION. Register-register arithmetic: ADD, SUB, SRA, AND (spec 41_alu_register.md). -/

namespace Sys2Proof.Machine

/-- The shape of the family (R164): both sources read before the write, result to `rd`, pc + 4. -/
def aluRegister (op : AluOp) (rd rs1 rs2 : RegIdx) (s : State) : Host.Outcome State Fault Refusal :=
  retire rd (alu op (s.readReg rs1) (s.readReg rs2)) s

/-- R160 -/
def execAdd (rd rs1 rs2 : RegIdx) (s : State) : Host.Outcome State Fault Refusal := aluRegister .add rd rs1 rs2 s

/-- R161 -/
def execSub (rd rs1 rs2 : RegIdx) (s : State) : Host.Outcome State Fault Refusal := aluRegister .sub rd rs1 rs2 s

/-- R162 -/
def execSra (rd rs1 rs2 : RegIdx) (s : State) : Host.Outcome State Fault Refusal := aluRegister .sra rd rs1 rs2 s

/-- R163 -/
def execAnd (rd rs1 rs2 : RegIdx) (s : State) : Host.Outcome State Fault Refusal := aluRegister .and rd rs1 rs2 s

end Sys2Proof.Machine
end

