-- ==== Sys2Proof/Machine/Flags.lean ====
section
/-! DEFINITION. The one flag, a wire of the cycle and not state (spec 10_state.md R30; 40_datapath.md R125, R141). -/

namespace Sys2Proof.Machine

/-- The zero/equality flag, computed from the ALU's operands whatever the operation (R125). -/
def zeroFlag (a b : Word) : Bool := a - b == 0#32

/-- `branch_taken` (R141): the only branch is not-equal. -/
def branchTaken (branch zero : Bool) : Bool := branch && !zero

end Sys2Proof.Machine
end

