-- ==== Sys2Proof/Machine/ControlTransfer.lean ====
section
/-! DEFINITION. Control transfer: BNE, JALR (spec 44_control_transfer.md). No delay slot, no check of a target (R192). -/

namespace Sys2Proof.Machine

/-- R190: taken when the operands differ; the offset is from the branch's own address; `funct3` is not looked at (R88). -/
def execBne (rs1 rs2 : RegIdx) (offset : BitVec 13) (_funct3 : Funct3) (s : State) : Host.Outcome State Fault Refusal :=
  if branchTaken true (zeroFlag (s.readReg rs1) (s.readReg rs2)) then .next (s.setPc (s.pc + immB offset))
  else .next s.advance

/-- R191: the target uses `x[rs1]` as read before the link is written (D12); `funct3` is not looked at (R88). -/
def execJalr (rd rs1 : RegIdx) (imm : BitVec 12) (_funct3 : Funct3) (s : State) : Host.Outcome State Fault Refusal :=
  .next ((s.writeReg rd (s.pc + 4#32)).setPc (indirectTarget (s.readReg rs1) (immI imm)))

end Sys2Proof.Machine
end

