-- ==== Sys2Proof/Machine/HaltUnrecognised.lean ====
section
/-! DEFINITION. The halt sentinel, unsupported function codes, unrecognised words (spec 45_halt_and_unrecognised.md). -/

namespace Sys2Proof.Machine

/-- R200: no register, no memory byte and not pc changes, and a further step halts again (R35). The host's three outcomes have
no `Halt`, so it is the next state equal to this one, which `State.halted` tells from every other. DESIGN CHOICE (log 5). -/
def execHalt (s : State) : Host.Outcome State Fault Refusal := .next s

/-- R203, `op_funct` -/
def execUnsupportedOp (_funct7 : Funct7) (_funct3 : Funct3) (_rd _rs1 _rs2 : RegIdx) (_s : State) :
    Host.Outcome State Fault Refusal := unsupported .opFunct

/-- R203, `opimm_funct3` -/
def execUnsupportedOpimm (_funct3 : Funct3) (_rd _rs1 : RegIdx) (_imm : BitVec 12) (_s : State) :
    Host.Outcome State Fault Refusal := unsupported .opimmFunct3

/-- R203, `load_width` -/
def execUnsupportedLoad (_funct3 : Funct3) (_rd _rs1 : RegIdx) (_imm : BitVec 12) (_s : State) :
    Host.Outcome State Fault Refusal := unsupported .loadWidth

/-- R203, `store_width` -/
def execUnsupportedStore (_funct3 : Funct3) (_rs2 _rs1 : RegIdx) (_imm : BitVec 12) (_s : State) :
    Host.Outcome State Fault Refusal := unsupported .storeWidth

/-- R202: a no-operation, pc + 4; ECALL, EBREAK, CSR, FENCE, MRET, WFI, JAL, AUIPC and AMO words among them (R205). -/
def execUnrecognised (_opcode : Opcode) (_rest : BitVec 25) (s : State) : Host.Outcome State Fault Refusal := .next s.advance

end Sys2Proof.Machine
end

