-- ==== Sys2Proof/Machine/LoadStore.lean ====
section
/-! DEFINITION. Loads and stores: LB, LW, LBU, SH, SW (spec 43_load_store.md). -/

namespace Sys2Proof.Machine

/-- R180: a dropped word load still writes `rd`, with 0. -/
def execLw (rd rs1 : RegIdx) (imm : BitVec 12) (s : State) : Host.Outcome State Fault Refusal :=
  retire rd (s.loadData (s.dataAddr rs1 (immI imm)) 4) s

/-- R181 -/
def execLb (rd rs1 : RegIdx) (imm : BitVec 12) (s : State) : Host.Outcome State Fault Refusal :=
  retire rd (sext ((s.loadData (s.dataAddr rs1 (immI imm)) 1).setWidth 8)) s

/-- R182 -/
def execLbu (rd rs1 : RegIdx) (imm : BitVec 12) (s : State) : Host.Outcome State Fault Refusal :=
  retire rd (zext ((s.loadData (s.dataAddr rs1 (immI imm)) 1).setWidth 8)) s

/-- R184: the data is `x[rs2]` (PRESUMED by the spec, log 13). -/
def execSh (rs2 rs1 : RegIdx) (imm : BitVec 12) (s : State) : Host.Outcome State Fault Refusal :=
  storeData (s.dataAddr rs1 (immS imm)) 2 (s.readReg rs2) s

/-- R183: the data is `x[rs2]` (PRESUMED by the spec, log 13). -/
def execSw (rs2 rs1 : RegIdx) (imm : BitVec 12) (s : State) : Host.Outcome State Fault Refusal :=
  storeData (s.dataAddr rs1 (immS imm)) 4 (s.readReg rs2) s

end Sys2Proof.Machine
end

