-- ==== Sys2Proof/Machine/Dispatch.lean ====
section
/-! DEFINITION. The dispatch: one arm per instruction, each one call of its meaning. -/

namespace Sys2Proof.Machine

def exec (i : Instr) (s : State) : Host.Outcome State Fault Refusal :=
  match i with
  | .add rd rs1 rs2 => Sys2Proof.Machine.execAdd rd rs1 rs2 s
  | .sub rd rs1 rs2 => Sys2Proof.Machine.execSub rd rs1 rs2 s
  | .sra rd rs1 rs2 => Sys2Proof.Machine.execSra rd rs1 rs2 s
  | .and rd rs1 rs2 => Sys2Proof.Machine.execAnd rd rs1 rs2 s
  | .addi rd rs1 imm => Sys2Proof.Machine.execAddi rd rs1 imm s
  | .sltiu rd rs1 imm => Sys2Proof.Machine.execSltiu rd rs1 imm s
  | .ori rd rs1 imm => Sys2Proof.Machine.execOri rd rs1 imm s
  | .lui rd imm20 => Sys2Proof.Machine.execLui rd imm20 s
  | .lb rd rs1 imm => Sys2Proof.Machine.execLb rd rs1 imm s
  | .lw rd rs1 imm => Sys2Proof.Machine.execLw rd rs1 imm s
  | .lbu rd rs1 imm => Sys2Proof.Machine.execLbu rd rs1 imm s
  | .sh rs2 rs1 imm => Sys2Proof.Machine.execSh rs2 rs1 imm s
  | .sw rs2 rs1 imm => Sys2Proof.Machine.execSw rs2 rs1 imm s
  | .bne rs1 rs2 offset funct3 => Sys2Proof.Machine.execBne rs1 rs2 offset funct3 s
  | .jalr rd rs1 imm funct3 => Sys2Proof.Machine.execJalr rd rs1 imm funct3 s
  | .halt => Sys2Proof.Machine.execHalt s
  | .unsupportedOp funct7 funct3 rd rs1 rs2 => Sys2Proof.Machine.execUnsupportedOp funct7 funct3 rd rs1 rs2 s
  | .unsupportedOpimm funct3 rd rs1 imm => Sys2Proof.Machine.execUnsupportedOpimm funct3 rd rs1 imm s
  | .unsupportedLoad funct3 rd rs1 imm => Sys2Proof.Machine.execUnsupportedLoad funct3 rd rs1 imm s
  | .unsupportedStore funct3 rs2 rs1 imm => Sys2Proof.Machine.execUnsupportedStore funct3 rs2 rs1 imm s
  | .unrecognised opcode rest => Sys2Proof.Machine.execUnrecognised opcode rest s

end Sys2Proof.Machine
end

