-- ==== Sys2Proof/Machine/Step.lean ====
section
/-! DEFINITION. The step: fetch, decode, execute (spec 40_datapath.md R100 to R103; 70_reset_and_hazards.md R246). -/

namespace Sys2Proof.Machine

/-- One cycle (R100): the fetched word is decoded and run. `Machine/Datapath.lean` gives the same cycle stage by stage (R145). -/
def step (s : State) : Host.Outcome State Fault Refusal := exec (decodeWord s.fetch) s

/-- `s` with the instruction word `w` placed where the next step fetches (log 10). -/
def State.withFetchWord (s : State) (nbits w : Nat) : State := s.placeWord (tableWord nbits w)

end Sys2Proof.Machine
end

