-- ==== Sys2Proof/Machine/Datapath.lean ====
section
/-! DEFINITION. The cycle stage by stage: field decoder, control ROM, operand mux, selector, execute, memory stage, writeback,
pc arbitrator, and the whole step of R145 with the spec's four outcomes (spec 40_datapath.md R100 to R145).
`step` reaches the same result through `exec`; an obligation says the two agree. -/

namespace Sys2Proof.Machine

/-- The six fields the field decoder splits a word into (R71, R104). -/
structure Fields where
  opcode : Opcode
  rd : RegIdx
  funct3 : Funct3
  rs1 : RegIdx
  rs2 : RegIdx
  funct7 : Funct7
  deriving DecidableEq, Repr

/-- The field decoder (R104). -/
def fieldDecode (w : Word) : Fields where
  opcode := opcodeOf w
  rd := rdOf w
  funct3 := funct3Of w
  rs1 := rs1Of w
  rs2 := rs2Of w
  funct7 := funct7Of w

/-- `NextPC` (R106): `SEQ = 0`, `INDIRECT = 1`. -/
inductive NextPc where
  | seq
  | indirect
  deriving DecidableEq, Repr

/-- The control vector (R106). -/
structure ControlVector where
  regWrite : Bool
  memRead : Bool
  memWrite : Bool
  branch : Bool
  aluSrc : Bool
  memToReg : Bool
  aluOp : BitVec 2
  luiSel : Bool
  jalrLink : Bool
  nextPc : NextPc
  deriving DecidableEq, Repr

/-- The all-disabled default vector (R105, R107). -/
def ControlVector.disabled : ControlVector :=
  ⟨false, false, false, false, false, false, 0b00, false, false, .seq⟩

/-- The control table, a pure and total function of the opcode alone (R105, R107; its don't-care cells: log 9). -/
def controlTable (op : Opcode) : ControlVector :=
  if op = opOP then ⟨true, false, false, false, false, false, 0b10, false, false, .seq⟩
  else if op = opOPIMM then ⟨true, false, false, false, true, false, 0b10, false, false, .seq⟩
  else if op = opLUI then ⟨true, false, false, false, true, false, 0b00, true, false, .seq⟩
  else if op = opLOAD then ⟨true, true, false, false, true, true, 0b00, false, false, .seq⟩
  else if op = opSTORE then ⟨false, false, true, false, true, false, 0b00, false, false, .seq⟩
  else if op = opBRANCH then ⟨false, false, false, true, false, false, 0b01, false, false, .seq⟩
  else if op = opJALR then ⟨true, false, false, false, true, false, 0b00, false, true, .indirect⟩
  else ControlVector.disabled

/-- How a stage stops the cycle (R12): before any state is written (R145). -/
inductive StageStop where
  | abort
  | unsupported (reason : UnsupportedReason)
  deriving DecidableEq, Repr

/-- Class 10, register-register (R121). -/
def selectRegister (f7 : Funct7) (f3 : Funct3) : Except StageStop AluOp :=
  if f7 = f7ADD ∧ f3 = f3ADD then .ok .add
  else if f7 = f7SUB ∧ f3 = f3SUB then .ok .sub
  else if f7 = f7SRA ∧ f3 = f3SRA then .ok .sra
  else if f7 = f7AND ∧ f3 = f3AND then .ok .and
  else .error (.unsupported .opFunct)

/-- Class 10, arithmetic-immediate (R122): `funct7` is not looked at. -/
def selectImmediate (f3 : Funct3) : Except StageStop AluOp :=
  if f3 = f3ADDI then .ok .add
  else if f3 = f3ORI then .ok .or
  else if f3 = f3SLTIU then .ok .sltu
  else .error (.unsupported .opimmFunct3)

/-- The ALU-operation selector (R120); class 11 aborts (R123). -/
def select (aluOp : BitVec 2) (f : Fields) : Except StageStop AluOp :=
  if aluOp = 0b00 then .ok .add
  else if aluOp = 0b01 then .ok .sub
  else if aluOp = 0b10 then
    if f.opcode = opOPIMM then selectImmediate f.funct3 else selectRegister f.funct7 f.funct3
  else .error .abort

/-- The second ALU operand (R111). -/
def operandB (c : ControlVector) (imm rs2Val : Word) : Word := if c.aluSrc then imm else rs2Val

/-- What the execute stage gives: `ex_out` and `zero` (R143). -/
structure ExecuteOut where
  exOut : Word
  zero : Bool
  deriving DecidableEq, Repr

/-- The execute stage (R111, R120, R124 to R126). -/
def executeStage (c : ControlVector) (f : Fields) (imm rs1Val rs2Val : Word) : Except StageStop ExecuteOut :=
  match select c.aluOp f with
  | .error e => .error e
  | .ok op =>
    let b := operandB c imm rs2Val
    .ok ⟨if c.luiSel then imm else alu op rs1Val b, zeroFlag rs1Val b⟩

/-- What the memory stage gives: the data memory after it and `mem_rdata` (R143). -/
structure MemoryOut where
  dmem : Memory
  rdata : Word
  deriving DecidableEq, Repr

/-- A load of the memory stage (R133), after the width check (R134). -/
def loadStage (size : Nat) (f3 : Funct3) (addr : Nat) (dmem : Memory) : Except StageStop MemoryOut :=
  if f3 = f3LB then .ok ⟨dmem, sext (Memory.read dmem addr)⟩
  else if f3 = f3LW then .ok ⟨dmem, (memRead size dmem addr 4).getD 0#32⟩
  else if f3 = f3LBU then .ok ⟨dmem, zext (Memory.read dmem addr)⟩
  else .error (.unsupported .loadWidth)

/-- A store of the memory stage (R132), after the width check (R134). -/
def storeStage (size : Nat) (f3 : Funct3) (addr : Nat) (rs2Val : Word) (dmem : Memory) : Except StageStop MemoryOut :=
  if f3 = f3SH then .ok ⟨memWrite size dmem addr 2 rs2Val, 0#32⟩
  else if f3 = f3SW then .ok ⟨memWrite size dmem addr 4 rs2Val, 0#32⟩
  else .error (.unsupported .storeWidth)

/-- The memory stage (R130 to R134): a no-op with `mem_rdata = 0` when neither access is enabled. -/
def memoryStage (size : Nat) (c : ControlVector) (f3 : Funct3) (exOut rs2Val : Word) (dmem : Memory) :
    Except StageStop MemoryOut :=
  if c.memWrite then storeStage size f3 (memAddr size exOut) rs2Val dmem
  else if c.memRead then loadStage size f3 (memAddr size exOut) dmem
  else .ok ⟨dmem, 0#32⟩

/-- `wb_data` (R136). -/
def writebackData (c : ControlVector) (pc exOut rdata : Word) : Word :=
  if c.jalrLink then pc + 4#32 else if c.memToReg then rdata else exOut

/-- `wb_en` (R135). -/
def writebackEnable (c : ControlVector) (rd : RegIdx) : Bool := c.regWrite && rd != 0#5

/-- The writeback stage (R135, R136). -/
def writebackStage (c : ControlVector) (rd : RegIdx) (data : Word) (s : State) : State :=
  if writebackEnable c rd then s.writeReg rd data else s

/-- The pc arbitrator (R140 to R142): two sequential selects, the indirect jump last and so with priority. -/
def nextPcOf (c : ControlVector) (zero : Bool) (pc imm rs1Val : Word) : Word :=
  let sel1 := if branchTaken c.branch zero then pc + imm else pc + 4#32
  match c.nextPc with
  | .indirect => indirectTarget rs1Val imm
  | .seq => sel1

/-- The four outcomes of one step (R12). -/
inductive CycleOutcome where
  | next (s : State)
  | halt
  | abort
  | unsupported (reason : UnsupportedReason)
  deriving DecidableEq, Repr

/-- A stage's stop as the outcome of the cycle. -/
def StageStop.outcome : StageStop → CycleOutcome
  | .abort => .abort
  | .unsupported r => .unsupported r

/-- The whole step in one place (R145). -/
def cycle (s : State) : CycleOutcome :=
  let instr := s.fetch
  if instr = 0#32 then .halt
  else
    let f := fieldDecode instr
    let c := controlTable f.opcode
    let imm := immGen instr
    let rs1Val := s.readReg f.rs1
    let rs2Val := s.readReg f.rs2
    match executeStage c f imm rs1Val rs2Val with
    | .error e => e.outcome
    | .ok ex =>
      match memoryStage s.memSize c f.funct3 ex.exOut rs2Val s.dmem with
      | .error e => e.outcome
      | .ok mem =>
        let s1 := s.setDmem mem.dmem
        let s2 := writebackStage c f.rd (writebackData c s.pc ex.exOut mem.rdata) s1
        .next (s2.setPc (nextPcOf c ex.zero s.pc imm rs1Val))

/-- A cycle's outcome in the host's three: `Halt` is the unchanged state (log 5), `Abort` and `Unsupported` are faults. -/
def CycleOutcome.report (o : CycleOutcome) (s : State) : Host.Outcome State Fault Refusal :=
  match o with
  | .next t => .next t
  | .halt => .next s
  | .abort => .fault .abort
  | .unsupported r => .fault (.unsupported r)

end Sys2Proof.Machine
end

