-- ==== Sys2Proof/Machine/Run.lean ====
section
/-! DEFINITION. The host's stopping rule and the end of a run (spec 70_reset_and_hazards.md R246, R247).
The bound `PC_LIMIT` is OPEN (D14), so it is an argument (log 8). -/

namespace Sys2Proof.Machine

/-- Why the host stops a run (R246). -/
inductive Stop where
  /-- `pc > PC_LIMIT`, tested before each step. -/
  | limit
  /-- The step's outcome was `Halt`. -/
  | halt
  /-- The step's outcome was `Abort`: the run ended in a fault. -/
  | abort
  /-- The step's outcome was `Unsupported`: the run ended in a fault. -/
  | unsupported (reason : UnsupportedReason)
  deriving DecidableEq, Repr

/-- Whether the run ended normally (R247). -/
def Stop.normal : Stop → Bool
  | .limit => true
  | .halt => true
  | .abort => false
  | .unsupported _ => false

/-- A run so far: ended, with its reason and its state, or not ended within the fuel (a run need not end, R247, U10). -/
inductive RunResult where
  | stopped (why : Stop) (s : State)
  | running (s : State)
  deriving DecidableEq, Repr

/-- The state a run has reached. -/
def RunResult.state : RunResult → State
  | .stopped _ s => s
  | .running s => s

/-- The loop of R246, at most `fuel` turns: the pc test, then the step. -/
def hostRun (pcLimit : Nat) : Nat → State → RunResult
  | 0, s => .running s
  | fuel + 1, s =>
    if s.pc.toNat > pcLimit then .stopped .limit s
    else
      match cycle s with
      | .next t => hostRun pcLimit fuel t
      | .halt => .stopped .halt s
      | .abort => .stopped .abort s
      | .unsupported r => .stopped (.unsupported r) s

end Sys2Proof.Machine
end

