-- ==== Sys2Proof/Safety.lean ====
section
/-! DEFINITION. What counts as a safe run, and the words that claims about the machine use. -/

namespace Sys2Proof.Machine

/-- The invariant of the machine: `MEM_SIZE` is at least 4 (R7), both memories in canonical form (so that equal memories are equal data, each of exactly the
addresses `0 .. MEM_SIZE-1`, R33) and register slot 0 zero (R20, R21). -/
structure State.Inv (s : State) : Prop where
  memBits_ge : 2 ≤ s.memBits
  imem_wf : Memory.wf s.memSize s.imem
  dmem_wf : Memory.wf s.memSize s.dmem
  slot_zero : s.x.get 0 = 0#32

/-- Every register reads as before. -/
def SameRegisters (s t : State) : Prop := ∀ r : RegIdx, t.readReg r = s.readReg r

/-- Register `rd` reads `v`, unless it is `x0`, which discards the write (R22); every other register reads as before. -/
def WritesOnly (rd : RegIdx) (v : Word) (s t : State) : Prop :=
  ∀ r : RegIdx, t.readReg r = if r = rd ∧ r ≠ 0#5 then v else s.readReg r

/-- Every byte of data memory reads as before. -/
def SameData (s t : State) : Prop := ∀ a : Nat, t.dataByte a = s.dataByte a

/-- `MEM_SIZE` is as before, and every byte of instruction memory reads as before. -/
def SameInstructions (s t : State) : Prop := t.memBits = s.memBits ∧ ∀ a : Nat, t.instrByte a = s.instrByte a

/-- The two states differ at most in instruction memory. -/
def AgreeOffInstructions (s t : State) : Prop := 
  s.memBits = t.memBits ∧ s.x = t.x ∧ s.pc = t.pc ∧ s.dmem = t.dmem

/-- The states that steps lead to from `s`. -/
inductive Reaches (s : State) : State → Prop where
  | refl : Reaches s s
  | step {t u : State} : Reaches s t → step t = .next u → Reaches s u

/-- A safe run: from `s` no step ever ends in a fault or a refusal. -/
def SafeFrom (s : State) : Prop := ∀ t, Reaches s t → ∃ u, step t = .next u

end Sys2Proof.Machine
end

