-- ==== Sys2Proof/Certificates/Slice0/Obligations.lean ====
section
/-! DEFINITION. The statements for the provers. Each docstring names the rule of spec/ it states; where a clause rests on a
decision the spec marks as its own, it names the decision and the log entry. -/

open Sys2Proof Sys2Proof.Machine

/-! Encoding -/

/-- Every well-formed instruction, with every operand its encoding admits, is what its four bytes decode to
(30_encoding.md sections 1 and 3; the numeric codes are D1, log 1). -/
def Obligations.DecodeOfEncodeIsTheInstruction : Prop :=
  ∀ (i : Instr) (rest : List Byte), i.wf = true →
    decodeWord (encode i) = i ∧ decode (encodeBytes i ++ rest) = .ok (i, rest)

/-- Every 32-bit word is the word of exactly the well-formed instruction it decodes to: decoding drops no bit and is total
(R70, R89; the numeric codes are D1, log 1). -/
def Obligations.EncodeOfDecodeIsTheWord : Prop :=
  ∀ w : Word, (decodeWord w).wf = true ∧ encode (decodeWord w) = w

/-- The row that spec/opcode_table.json gives a word, in the order of its priorities, is the row of the decoded instruction, and
no other row is selected (R89; the numeric codes are D1, log 1). -/
def Obligations.DecodingFollowsTheOpcodeTable : Prop :=
  ∀ w : Word, ∀ r ∈ opcodeTable, r.selected w = true ↔ r.mnemonic = (decodeWord w).mnemonic

/-- The bit layouts the instruction rules give, each with every operand (encoding lines of R160 to R163, R170 to R173, R180 to
R184, R190, R191, R200; their numeric codes are marked general knowledge, D1, log 1). `funct3` of BNE and JALR is free (R88). -/
def Obligations.InstructionLayoutsDecode : Prop :=
  (∀ rd rs1 rs2 : RegIdx,
    decodeWord (0b0000000#7 ++ rs2 ++ rs1 ++ 0b000#3 ++ rd ++ 0b0110011#7) = .add rd rs1 rs2 ∧
    decodeWord (0b0100000#7 ++ rs2 ++ rs1 ++ 0b000#3 ++ rd ++ 0b0110011#7) = .sub rd rs1 rs2 ∧
    decodeWord (0b0100000#7 ++ rs2 ++ rs1 ++ 0b101#3 ++ rd ++ 0b0110011#7) = .sra rd rs1 rs2 ∧
    decodeWord (0b0000000#7 ++ rs2 ++ rs1 ++ 0b111#3 ++ rd ++ 0b0110011#7) = .and rd rs1 rs2) ∧
  (∀ (rd rs1 : RegIdx) (imm : BitVec 12),
    decodeWord (imm ++ rs1 ++ 0b000#3 ++ rd ++ 0b0010011#7) = .addi rd rs1 imm ∧
    decodeWord (imm ++ rs1 ++ 0b110#3 ++ rd ++ 0b0010011#7) = .ori rd rs1 imm ∧
    decodeWord (imm ++ rs1 ++ 0b011#3 ++ rd ++ 0b0010011#7) = .sltiu rd rs1 imm ∧
    decodeWord (imm ++ rs1 ++ 0b010#3 ++ rd ++ 0b0000011#7) = .lw rd rs1 imm ∧
    decodeWord (imm ++ rs1 ++ 0b000#3 ++ rd ++ 0b0000011#7) = .lb rd rs1 imm ∧
    decodeWord (imm ++ rs1 ++ 0b100#3 ++ rd ++ 0b0000011#7) = .lbu rd rs1 imm ∧
    ∀ funct3 : Funct3, decodeWord (imm ++ rs1 ++ funct3 ++ rd ++ 0b1100111#7) = .jalr rd rs1 imm funct3) ∧
  (∀ (rd : RegIdx) (imm20 : BitVec 20), decodeWord (imm20 ++ rd ++ 0b0110111#7) = .lui rd imm20) ∧
  (∀ (rs2 rs1 : RegIdx) (hi : BitVec 7) (lo : BitVec 5),
    decodeWord (hi ++ rs2 ++ rs1 ++ 0b010#3 ++ lo ++ 0b0100011#7) = .sw rs2 rs1 (hi ++ lo) ∧
    decodeWord (hi ++ rs2 ++ rs1 ++ 0b001#3 ++ lo ++ 0b0100011#7) = .sh rs2 rs1 (hi ++ lo)) ∧
  (∀ (rs2 rs1 : RegIdx) (funct3 : Funct3) (b12 b11 : BitVec 1) (b10_5 : BitVec 6) (b4_1 : BitVec 4),
    decodeWord (b12 ++ b10_5 ++ rs2 ++ rs1 ++ funct3 ++ b4_1 ++ b11 ++ 0b1100011#7) =
      .bne rs1 rs2 (b12 ++ b11 ++ b10_5 ++ b4_1 ++ 0#1) funct3) ∧
  decodeWord 0#32 = .halt

/-- One word of each family, as 95_test_vectors.md writes it, decodes to the instruction it stands for (the numeric opcodes and
function codes in the words are D1, marked general knowledge, log 1). -/
def Obligations.SampleWordsDecode : Prop :=
  decodeWord 0x407352B3#32 = .sra 5 6 7 ∧ decodeWord 0xFFF30293#32 = .addi 5 6 0xFFF ∧
  decodeWord 0xABCDE2B7#32 = .lui 5 0xABCDE ∧ decodeWord 0x00832283#32 = .lw 5 6 8 ∧
  decodeWord 0xFE731F23#32 = .sh 7 6 0xFFE ∧ decodeWord 0xFE629CE3#32 = .bne 5 6 0x1FF8 1 ∧
  decodeWord 0xFFD280E7#32 = .jalr 1 5 0xFFD 0 ∧ decodeWord 0x00000080#32 = .unrecognised 0 1

/-- R71, bit by bit: the six fields of a word, whatever its opcode. -/
def Obligations.FieldsAreTheBitsOfTheWord : Prop :=
  ∀ w : Word,
    (∀ k < 7, (opcodeOf w).getLsbD k = w.getLsbD k) ∧
    (∀ k < 5, (rdOf w).getLsbD k = w.getLsbD (7 + k)) ∧
    (∀ k < 3, (funct3Of w).getLsbD k = w.getLsbD (12 + k)) ∧
    (∀ k < 5, (rs1Of w).getLsbD k = w.getLsbD (15 + k)) ∧
    (∀ k < 5, (rs2Of w).getLsbD k = w.getLsbD (20 + k)) ∧
    (∀ k < 7, (funct7Of w).getLsbD k = w.getLsbD (25 + k))

/-- R78, R79, R81, bit by bit, with their ranges: the I-, S- and U-immediates; and zero for every opcode outside the four
formats (R82). -/
def Obligations.ImmediatesAreTheRulesBits : Prop :=
  ∀ w : Word,
    ((opcodeOf w = opOPIMM ∨ opcodeOf w = opLOAD ∨ opcodeOf w = opJALR) →
      (∀ k < 32, (immGen w).getLsbD k = if k < 11 then w.getLsbD (20 + k) else w.getLsbD 31) ∧
      -2048 ≤ (immGen w).toInt ∧ (immGen w).toInt ≤ 2047) ∧
    (opcodeOf w = opSTORE →
      (∀ k < 32, (immGen w).getLsbD k =
        if k < 5 then w.getLsbD (7 + k) else if k < 11 then w.getLsbD (20 + k) else w.getLsbD 31) ∧
      -2048 ≤ (immGen w).toInt ∧ (immGen w).toInt ≤ 2047) ∧
    (opcodeOf w = opLUI → ∀ k < 32, (immGen w).getLsbD k = if k < 12 then false else w.getLsbD k) ∧
    (opcodeOf w ∉ [opOPIMM, opLOAD, opJALR, opSTORE, opBRANCH, opLUI] → immGen w = 0#32)

/-- R80, bit by bit, with its range, and its use (R190): a taken branch adds this immediate, unscaled, to the branch's
own address, modulo 2^32 (the wrap is the spec's decision D2, log 11). -/
def Obligations.BranchImmediateIsTheScrambledEvenOffset : Prop :=
  ∀ w : Word, opcodeOf w = opBRANCH →
    (∀ k < 32, (immGen w).getLsbD k =
      if k = 0 then false
      else if k < 5 then w.getLsbD (7 + k)
      else if k < 11 then w.getLsbD (20 + k)
      else if k = 11 then w.getLsbD 7
      else w.getLsbD 31) ∧
    (-4096 ≤ (immGen w).toInt ∧ (immGen w).toInt ≤ 4094 ∧ (immGen w).toInt % 2 = 0) ∧
    ∀ s : State, s.readReg (rs1Of w) ≠ s.readReg (rs2Of w) →
      ∃ t, Sys2Proof.Machine.exec (decodeWord w) s = .next t ∧ t.pc = s.pc + immGen w

/-- R83: sign extension is an arithmetic right shift after a left shift to the top bit. -/
def Obligations.SignExtensionIsShiftLeftThenArithmeticRight : Prop :=
  ∀ (n : Nat) (w : Word), 1 ≤ n → n ≤ 32 → sext (w.setWidth n) = (w <<< (32 - n)).sshiftRight (32 - n)

/-! The datapath -/

/-- R124: the six primitive operations, in arithmetic and bit by bit. -/
def Obligations.AluPrimitiveOperations : Prop :=
  ∀ a b : Word,
    (∀ k < 32, (alu .and a b).getLsbD k = (a.getLsbD k && b.getLsbD k)) ∧
    (∀ k < 32, (alu .or a b).getLsbD k = (a.getLsbD k || b.getLsbD k)) ∧
    (alu .add a b).toNat = (a.toNat + b.toNat) % 2 ^ 32 ∧
    (alu .sub a b).toNat = (a.toNat + (2 ^ 32 - b.toNat)) % 2 ^ 32 ∧
    alu .sltu a b = (if a.toNat < b.toNat then 1#32 else 0#32) ∧
    (∀ k < 32, (alu .sra a b).getLsbD k =
      if k + b.toNat % 32 < 32 then a.getLsbD (k + b.toNat % 32) else a.getLsbD 31)

/-- R125: the zero flag is equality of the ALU's operands whatever the operation, and only the branch decision reads it. -/
def Obligations.ZeroFlagIsEqualityOfTheOperands : Prop :=
  (∀ (c : ControlVector) (f : Fields) (imm rs1Val rs2Val : Word) (ex : ExecuteOut),
    executeStage c f imm rs1Val rs2Val = .ok ex →
      (ex.zero = true ↔ rs1Val = if c.aluSrc = true then imm else rs2Val)) ∧
  ∀ (c : ControlVector) (pc imm rs1Val : Word), c.branch = false →
    nextPcOf c true pc imm rs1Val = nextPcOf c false pc imm rs1Val

/-- R126: the execute output is the immediate when `LuiSel` is set and the ALU's result otherwise; for LUI the selector,
which still runs in class 00, stops nothing (that LUI's row has class 00 is the spec's decision D15 on a don't-care cell, log 9). -/
def Obligations.ExecuteOutputIsAluResultOrUpperImmediate : Prop :=
  (∀ (c : ControlVector) (f : Fields) (imm rs1Val rs2Val : Word) (ex : ExecuteOut),
    executeStage c f imm rs1Val rs2Val = .ok ex →
      (c.luiSel = true → ex.exOut = imm) ∧
      (c.luiSel = false → ∃ op, select c.aluOp f = .ok op ∧
        ex.exOut = alu op rs1Val (if c.aluSrc = true then imm else rs2Val))) ∧
  ∀ (f : Fields) (imm rs1Val rs2Val : Word), f.opcode = opLUI →
    ∃ ex, executeStage (controlTable f.opcode) f imm rs1Val rs2Val = .ok ex ∧ ex.exOut = imm

/-- R140 to R142: three candidates, two sequential selects, the indirect jump with priority over the branch; the cycle's new pc
is what they give; no row of the control table asks for a branch and an indirect jump at once. The sums wrap at 32 bits by D2
(log 11), and JALR's target comes from the register before writeback, also for `rd = rs1`, by D12 (R112, log 7). -/
def Obligations.PcArbitratorChoosesOneOfThree : Prop :=
  (∀ (c : ControlVector) (zero : Bool) (pc imm rs1Val : Word),
    (c.nextPc = .indirect → ∀ k < 32,
      (nextPcOf c zero pc imm rs1Val).getLsbD k = (decide (k ≠ 0) && (rs1Val + imm).getLsbD k)) ∧
    (c.nextPc = .seq → c.branch = true → zero = false → nextPcOf c zero pc imm rs1Val = pc + imm) ∧
    (c.nextPc = .seq → c.branch = false ∨ zero = true → nextPcOf c zero pc imm rs1Val = pc + 4#32)) ∧
  (∀ op : Opcode, ¬ ((controlTable op).branch = true ∧ (controlTable op).nextPc = .indirect)) ∧
  ∀ s t : State, cycle s = .next t →
    let w := s.fetch
    let c := controlTable (opcodeOf w)
    let a := s.readReg (rs1Of w)
    let b := if c.aluSrc = true then immGen w else s.readReg (rs2Of w)
    t.pc = nextPcOf c (decide (a = b)) s.pc (immGen w) a

/-- R135, R136: writeback writes `rd` when `RegWrite` is set and `rd` is not 0, with the link, the memory data or the execute
output; when it is suppressed no register changes. -/
def Obligations.WritebackWritesOnlyRdWhenEnabled : Prop :=
  ∀ s t : State, cycle s = .next t →
    let w := s.fetch
    let c := controlTable (opcodeOf w)
    (c.regWrite = false ∨ rdOf w = 0#5 → SameRegisters s t) ∧
    (c.regWrite = true → ∃ ex mem,
      executeStage c (fieldDecode w) (immGen w) (s.readReg (rs1Of w)) (s.readReg (rs2Of w)) = .ok ex ∧
      memoryStage s.memSize c (funct3Of w) ex.exOut (s.readReg (rs2Of w)) s.dmem = .ok mem ∧
      WritesOnly (rdOf w)
        (if c.jalrLink = true then s.pc + 4#32 else if c.memToReg = true then mem.rdata else ex.exOut) s t)

/-- R145: decoding and running the instruction is the datapath's cycle, for every state: the same next state, or the same stop
(`Halt` reported as the unchanged state, log 5). -/
def Obligations.StepIsTheDatapathCycle : Prop :=
  ∀ s : State, Sys2Proof.Machine.step s = (cycle s).report s

/-- R204, R123, R107: class 11 is mapped to no operation, no row of the control table has it, so no cycle aborts (the spec marks
the inference as its own; that LUI's row avoids class 11 is its decision D15 on a don't-care cell, log 9). -/
def Obligations.NoCycleAborts : Prop :=
  (∀ f : Fields, select 0b11#2 f = .error .abort) ∧
  (∀ op : Opcode, (controlTable op).aluOp ≠ 0b11#2) ∧
  ∀ s : State, cycle s ≠ .abort ∧ Sys2Proof.Machine.step s ≠ .fault .abort

/-! Fetch and step -/

/-- A step runs the instruction that the four bytes at the pc decode to, and HALT where no four bytes stand
(R100, R102; the bound by D3, log 11). -/
def Obligations.StepRunsTheDecodedInstruction : Prop :=
  ∀ (s : State),
    (∀ (i : Instr), s.pc.toNat + 3 < s.memSize →
      decode [s.instrByte s.pc.toNat, s.instrByte (s.pc.toNat + 1), s.instrByte (s.pc.toNat + 2),
        s.instrByte (s.pc.toNat + 3)] = .ok (i, []) →
      Sys2Proof.Machine.step s = Sys2Proof.Machine.exec i s) ∧
    (s.pc.toNat + 3 ≥ s.memSize → Sys2Proof.Machine.step s = Sys2Proof.Machine.exec .halt s)

/-- R41, R45, R102: the fetched word is the four bytes at the pc, least significant at the lowest address, or 0 out of bounds
(the bound taken on integers by D3, log 11). -/
def Obligations.FetchIsFourLittleEndianBytes : Prop :=
  ∀ s : State,
    (s.pc.toNat + 3 < s.memSize →
      s.fetch = s.instrByte (s.pc.toNat + 3) ++ s.instrByte (s.pc.toNat + 2) ++ s.instrByte (s.pc.toNat + 1) ++
        s.instrByte s.pc.toNat) ∧
    (s.pc.toNat + 3 ≥ s.memSize → s.fetch = 0#32)

/-- The model's own loader (log 10): the word placed is the word the next step fetches; registers and data memory stay, the pc
stays where it can fetch, and instruction memory changes in those four bytes only. -/
def Obligations.PlacedWordIsTheFetchedWord : Prop :=
  ∀ (s : State) (w : Nat), w < 2 ^ 32 → 2 ≤ s.memBits →
    let t := s.withFetchWord 32 w
    t.fetch = BitVec.ofNat 32 w ∧ SameRegisters s t ∧ SameData s t ∧ t.memBits = s.memBits ∧
    (s.pc.toNat + 3 < s.memSize → t.pc = s.pc) ∧
    (∀ a, a < t.pc.toNat ∨ t.pc.toNat + 4 ≤ a → t.instrByte a = s.instrByte a) ∧ (s.Inv → t.Inv)

/-! Register-register arithmetic: every operand, every state; all else unchanged (R164) -/

/-- R160, the effect; its encoding line is in InstructionLayoutsDecode. -/
def Obligations.AddWritesTheSum : Prop :=
  ∀ (rd rs1 rs2 : RegIdx) (s : State), ∃ t, Sys2Proof.Machine.exec (.add rd rs1 rs2) s = .next t ∧
    WritesOnly rd (s.readReg rs1 + s.readReg rs2) s t ∧ t.pc = s.pc + 4#32 ∧ SameData s t ∧ SameInstructions s t

/-- R161, the effect. -/
def Obligations.SubWritesTheDifference : Prop :=
  ∀ (rd rs1 rs2 : RegIdx) (s : State), ∃ t, Sys2Proof.Machine.exec (.sub rd rs1 rs2) s = .next t ∧
    WritesOnly rd (s.readReg rs1 - s.readReg rs2) s t ∧ t.pc = s.pc + 4#32 ∧ SameData s t ∧ SameInstructions s t

/-- R162, the effect: the signed value divided by a power of two, rounded down; only five bits of the amount count. -/
def Obligations.SraWritesTheArithmeticShift : Prop :=
  ∀ (rd rs1 rs2 : RegIdx) (s : State), ∃ t, Sys2Proof.Machine.exec (.sra rd rs1 rs2) s = .next t ∧
    WritesOnly rd (BitVec.ofInt 32 ((s.readReg rs1).toInt / 2 ^ ((s.readReg rs2).toNat % 32))) s t ∧
    t.pc = s.pc + 4#32 ∧ SameData s t ∧ SameInstructions s t

/-- R163, the effect. -/
def Obligations.AndWritesTheBitwiseAnd : Prop :=
  ∀ (rd rs1 rs2 : RegIdx) (s : State), ∃ t, Sys2Proof.Machine.exec (.and rd rs1 rs2) s = .next t ∧
    WritesOnly rd (s.readReg rs1 &&& s.readReg rs2) s t ∧ t.pc = s.pc + 4#32 ∧ SameData s t ∧ SameInstructions s t

/-! Register-immediate arithmetic and LUI (R174) -/

/-- R170, the effect: the immediate's signed value is added. -/
def Obligations.AddiAddsTheSignedImmediate : Prop :=
  ∀ (rd rs1 : RegIdx) (imm : BitVec 12) (s : State), ∃ t, Sys2Proof.Machine.exec (.addi rd rs1 imm) s = .next t ∧
    WritesOnly rd (s.readReg rs1 + BitVec.ofInt 32 imm.toInt) s t ∧ t.pc = s.pc + 4#32 ∧ SameData s t ∧ SameInstructions s t

/-- R172, the effect: the immediate is sign-extended and then compared as unsigned (D20, log 12). -/
def Obligations.SltiuComparesUnsigned : Prop :=
  ∀ (rd rs1 : RegIdx) (imm : BitVec 12) (s : State), ∃ t, Sys2Proof.Machine.exec (.sltiu rd rs1 imm) s = .next t ∧
    WritesOnly rd (if (s.readReg rs1).toNat < (BitVec.ofInt 32 imm.toInt).toNat then 1#32 else 0#32) s t ∧
    t.pc = s.pc + 4#32 ∧ SameData s t ∧ SameInstructions s t

/-- R171, the effect. -/
def Obligations.OriOrsTheSignedImmediate : Prop :=
  ∀ (rd rs1 : RegIdx) (imm : BitVec 12) (s : State), ∃ t, Sys2Proof.Machine.exec (.ori rd rs1 imm) s = .next t ∧
    WritesOnly rd (s.readReg rs1 ||| BitVec.ofInt 32 imm.toInt) s t ∧ t.pc = s.pc + 4#32 ∧ SameData s t ∧ SameInstructions s t

/-- R173, the effect. -/
def Obligations.LuiWritesTheUpperImmediate : Prop :=
  ∀ (rd : RegIdx) (imm20 : BitVec 20) (s : State), ∃ t, Sys2Proof.Machine.exec (.lui rd imm20) s = .next t ∧
    WritesOnly rd (BitVec.ofNat 32 (imm20.toNat * 2 ^ 12)) s t ∧ t.pc = s.pc + 4#32 ∧ SameData s t ∧ SameInstructions s t

/-! Loads and stores (R185). The mask is D6, the bound D7, a dropped load's 0 is D8 (logs 2 and 11);
that a store's data is `x[rs2]` is general knowledge (log 13). -/

/-- R180, the effect: four little-endian bytes, or 0 when the access would run past the end. -/
def Obligations.LwLoadsFourBytesOrZero : Prop :=
  ∀ (rd rs1 : RegIdx) (imm : BitVec 12) (s : State), ∃ t, Sys2Proof.Machine.exec (.lw rd rs1 imm) s = .next t ∧
    (let a := s.dataAddr rs1 (immI imm)
     WritesOnly rd (if a + 4 ≤ s.memSize then
       s.dataByte (a + 3) ++ s.dataByte (a + 2) ++ s.dataByte (a + 1) ++ s.dataByte a else 0#32) s t) ∧
    t.pc = s.pc + 4#32 ∧ SameData s t ∧ SameInstructions s t

/-- R181, the effect: the byte's signed value. -/
def Obligations.LbLoadsASignedByte : Prop :=
  ∀ (rd rs1 : RegIdx) (imm : BitVec 12) (s : State), ∃ t, Sys2Proof.Machine.exec (.lb rd rs1 imm) s = .next t ∧
    WritesOnly rd (BitVec.ofInt 32 (s.dataByte (s.dataAddr rs1 (immI imm))).toInt) s t ∧
    t.pc = s.pc + 4#32 ∧ SameData s t ∧ SameInstructions s t

/-- R182, the effect: the byte's unsigned value. -/
def Obligations.LbuLoadsAnUnsignedByte : Prop :=
  ∀ (rd rs1 : RegIdx) (imm : BitVec 12) (s : State), ∃ t, Sys2Proof.Machine.exec (.lbu rd rs1 imm) s = .next t ∧
    WritesOnly rd (BitVec.ofNat 32 (s.dataByte (s.dataAddr rs1 (immI imm))).toNat) s t ∧
    t.pc = s.pc + 4#32 ∧ SameData s t ∧ SameInstructions s t

/-- R183, the effect and the frame: the four bytes of `x[rs2]` at the computed address, or no byte at all. -/
def Obligations.SwStoresFourBytesOrNothing : Prop :=
  ∀ (rs2 rs1 : RegIdx) (imm : BitVec 12) (s : State), ∃ t, Sys2Proof.Machine.exec (.sw rs2 rs1 imm) s = .next t ∧
    (∀ a, a = s.dataAddr rs1 (immS imm) → ∀ b, t.dataByte b =
      if a + 4 ≤ s.memSize ∧ a ≤ b ∧ b < a + 4 then (s.readReg rs2).extractLsb' (8 * (b - a)) 8 else s.dataByte b) ∧
    SameRegisters s t ∧ t.pc = s.pc + 4#32 ∧ SameInstructions s t

/-- R184, the effect and the frame: the two low bytes of `x[rs2]` at the computed address, or no byte at all. -/
def Obligations.ShStoresTwoBytesOrNothing : Prop :=
  ∀ (rs2 rs1 : RegIdx) (imm : BitVec 12) (s : State), ∃ t, Sys2Proof.Machine.exec (.sh rs2 rs1 imm) s = .next t ∧
    (∀ a, a = s.dataAddr rs1 (immS imm) → ∀ b, t.dataByte b =
      if a + 2 ≤ s.memSize ∧ a ≤ b ∧ b < a + 2 then (s.readReg rs2).extractLsb' (8 * (b - a)) 8 else s.dataByte b) ∧
    SameRegisters s t ∧ t.pc = s.pc + 4#32 ∧ SameInstructions s t

/-- R44, R185: the data address is the wrapped sum modulo `MEM_SIZE`, so it is always inside, and effective addresses that differ
by a multiple of `MEM_SIZE` are one address (D6, log 2). -/
def Obligations.DataAddressesAliasModuloMemSize : Prop :=
  (∀ (s : State) (rs1 : RegIdx) (imm : Word),
    s.dataAddr rs1 imm = (s.readReg rs1 + imm).toNat % s.memSize ∧ s.dataAddr rs1 imm < s.memSize) ∧
  ∀ (n : Nat) (ea : Word) (k : Nat), memAddr (2 ^ n) (ea + BitVec.ofNat 32 (k * 2 ^ n)) = memAddr (2 ^ n) ea

/-! Control transfer -/

/-- R190, the effect, for every `funct3` (R88): taken when the operands differ; nothing but the pc changes. -/
def Obligations.BneBranchesWhenUnequal : Prop :=
  ∀ (rs1 rs2 : RegIdx) (offset : BitVec 13) (funct3 : Funct3) (s : State), ∃ t,
    Sys2Proof.Machine.exec (.bne rs1 rs2 offset funct3) s = .next t ∧
    (s.readReg rs1 ≠ s.readReg rs2 → t.pc = s.pc + BitVec.ofInt 32 offset.toInt) ∧
    (s.readReg rs1 = s.readReg rs2 → t.pc = s.pc + 4#32) ∧
    SameRegisters s t ∧ SameData s t ∧ SameInstructions s t

/-- R191, the effect, for every `funct3` (R88): the link, and the target from the old `x[rs1]` with bit 0 cleared, also when
`rd = rs1` (D12, log 7). -/
def Obligations.JalrLinksAndJumps : Prop :=
  ∀ (rd rs1 : RegIdx) (imm : BitVec 12) (funct3 : Funct3) (s : State), ∃ t,
    Sys2Proof.Machine.exec (.jalr rd rs1 imm funct3) s = .next t ∧ WritesOnly rd (s.pc + 4#32) s t ∧
    t.pc.toNat = (s.readReg rs1 + BitVec.ofInt 32 imm.toInt).toNat / 2 * 2 ∧ SameData s t ∧ SameInstructions s t

/-! Halt, unrecognised words, unsupported function codes -/

/-- R200, R201, R35: HALT leaves the state as it is; a fetch of the sentinel, or one out of bounds, runs it; and a halted core
never leaves its state (D13, D3; the unchanged next state is the model's form of the outcome `Halt`, log 5). -/
def Obligations.HaltedCoreStaysAsItIs : Prop :=
  ∀ s : State, Sys2Proof.Machine.exec .halt s = .next s ∧
    (s.pc.toNat + 3 ≥ s.memSize → s.halted = true) ∧
    (s.halted = true → Sys2Proof.Machine.step s = .next s ∧ ∀ t, Reaches s t → t = s)

/-- R202: a word that is not all zero and has none of the seven opcodes is a no-operation; so is the instruction it decodes to,
whatever its bits (the seven numeric opcodes are D1, log 1). -/
def Obligations.UnrecognisedWordsOnlyAdvanceThePc : Prop :=
  (∀ s : State, s.fetch ≠ 0#32 →
    opcodeOf s.fetch ∉ [0b0110011#7, 0b0010011#7, 0b0110111#7, 0b0000011#7, 0b0100011#7, 0b1100011#7, 0b1100111#7] →
    ∃ t, Sys2Proof.Machine.step s = .next t ∧
      t.pc = s.pc + 4#32 ∧ SameRegisters s t ∧ SameData s t ∧ SameInstructions s t) ∧
  ∀ (op : Opcode) (rest : BitVec 25) (s : State), ∃ t, Sys2Proof.Machine.exec (.unrecognised op rest) s = .next t ∧
    t.pc = s.pc + 4#32 ∧ SameRegisters s t ∧ SameData s t ∧ SameInstructions s t

/-- R203: the four kinds of word the spec gives no meaning stop with their reason, as instructions and as fetched words
(D9 to D11, log 6; the numeric opcodes and function codes are D1, marked general knowledge, log 1). -/
def Obligations.UnsupportedFunctionCodesFault : Prop :=
  (∀ (f7 : Funct7) (f3 : Funct3) (rd rs1 rs2 : RegIdx) (imm : BitVec 12) (s : State),
    Sys2Proof.Machine.exec (.unsupportedOp f7 f3 rd rs1 rs2) s = .fault (.unsupported .opFunct) ∧
    Sys2Proof.Machine.exec (.unsupportedOpimm f3 rd rs1 imm) s = .fault (.unsupported .opimmFunct3) ∧
    Sys2Proof.Machine.exec (.unsupportedLoad f3 rd rs1 imm) s = .fault (.unsupported .loadWidth) ∧
    Sys2Proof.Machine.exec (.unsupportedStore f3 rs2 rs1 imm) s = .fault (.unsupported .storeWidth)) ∧
  ∀ s : State,
    (opcodeOf s.fetch = 0b0110011#7 →
      (funct7Of s.fetch, funct3Of s.fetch) ∉ [(0b0000000#7, 0b000#3), (0b0100000#7, 0b000#3), (0b0100000#7, 0b101#3),
        (0b0000000#7, 0b111#3)] → Sys2Proof.Machine.step s = .fault (.unsupported .opFunct)) ∧
    (opcodeOf s.fetch = 0b0010011#7 → funct3Of s.fetch ∉ [0b000#3, 0b011#3, 0b110#3] →
      Sys2Proof.Machine.step s = .fault (.unsupported .opimmFunct3)) ∧
    (opcodeOf s.fetch = 0b0000011#7 → funct3Of s.fetch ∉ [0b000#3, 0b010#3, 0b100#3] →
      Sys2Proof.Machine.step s = .fault (.unsupported .loadWidth)) ∧
    (opcodeOf s.fetch = 0b0100011#7 → funct3Of s.fetch ∉ [0b001#3, 0b010#3] →
      Sys2Proof.Machine.step s = .fault (.unsupported .storeWidth))

/-- R210, R214: nothing else stops a step: a step that gives no next state is a fault of one of the four opcodes with an unlisted
function code, and no step is refused (D9 to D11, log 6). -/
def Obligations.StepsStopOnlyOnUnlistedFunctionCodes : Prop :=
  ∀ s : State, (∀ ρ, Sys2Proof.Machine.step s ≠ .refused ρ) ∧
    ∀ φ, Sys2Proof.Machine.step s = .fault φ →
      (opcodeOf s.fetch = opOP ∧ listedOp (funct7Of s.fetch) (funct3Of s.fetch) = false ∧ φ = .unsupported .opFunct) ∨
      (opcodeOf s.fetch = opOPIMM ∧ listedOpimm (funct3Of s.fetch) = false ∧ φ = .unsupported .opimmFunct3) ∨
      (opcodeOf s.fetch = opLOAD ∧ listedLoad (funct3Of s.fetch) = false ∧ φ = .unsupported .loadWidth) ∨
      (opcodeOf s.fetch = opSTORE ∧ listedStore (funct3Of s.fetch) = false ∧ φ = .unsupported .storeWidth)

/-! Rules of the whole machine -/

/-- R22, R23: a step changes no register but the one its word's `rd` field names, never `x0`, and none at all under the opcodes
STORE and BRANCH and the unrecognised ones. -/
def Obligations.StepChangesAtMostTheRdRegister : Prop :=
  ∀ s t : State, Sys2Proof.Machine.step s = .next t → ∀ r : RegIdx, t.readReg r ≠ s.readReg r →
    r = rdOf s.fetch ∧ r ≠ 0#5 ∧ opcodeOf s.fetch ∈ [opOP, opOPIMM, opLUI, opLOAD, opJALR]

/-- R26: the three ways the pc moves, for every step that is not a halt (widths and wrap by D2, log 11;
the old `x[rs1]` of a JALR also for `rd = rs1` by D12, log 7). -/
def Obligations.PcMovesInOneOfThreeWays : Prop :=
  ∀ s t : State, s.halted = false → Sys2Proof.Machine.step s = .next t →
    t.pc =
      if opcodeOf s.fetch = opBRANCH ∧ s.readReg (rs1Of s.fetch) ≠ s.readReg (rs2Of s.fetch) then s.pc + immGen s.fetch
      else if opcodeOf s.fetch = opJALR then (s.readReg (rs1Of s.fetch) + immGen s.fetch) &&& 0xFFFFFFFE#32
      else s.pc + 4#32

/-- R27: from an even pc every later pc is even (an inference the spec marks as its own). -/
def Obligations.EvenPcStaysEven : Prop :=
  ∀ s t : State, s.pc.toNat % 2 = 0 → Reaches s t → t.pc.toNat % 2 = 0

/-- R57: no store, and nothing else, changes instruction memory or its size, and a fetch reads nothing but it and the pc. -/
def Obligations.InstructionMemoryNeverChanges : Prop :=
  (∀ s t : State, Reaches s t → t.imem = s.imem ∧ t.memBits = s.memBits) ∧
  ∀ s t : State, s.memBits = t.memBits → s.imem = t.imem → s.pc = t.pc → s.fetch = t.fetch

/-- R33, R47, R48, R132: only a word with opcode STORE changes data memory, and then only the bytes of one access of two or four
bytes at the masked address (D6, log 2), which fits (strict, D7, log 11), to the bytes of `x[rs2]` (general knowledge, log 13). -/
def Obligations.OnlyStoresChangeDataMemory : Prop :=
  ∀ s t : State, Sys2Proof.Machine.step s = .next t →
    (opcodeOf s.fetch ≠ opSTORE → t.dmem = s.dmem) ∧
    ∀ b, t.dataByte b ≠ s.dataByte b →
      ∃ n, (funct3Of s.fetch = f3SH ∧ n = 2 ∨ funct3Of s.fetch = f3SW ∧ n = 4) ∧
        (let a := s.dataAddr (rs1Of s.fetch) (immGen s.fetch)
         a + n ≤ s.memSize ∧ a ≤ b ∧ b < a + n ∧
           t.dataByte b = (s.readReg (rs2Of s.fetch)).extractLsb' (8 * (b - a)) 8)

/-- R59: instruction memory reaches registers, pc and data memory only through the fetched word
(an inference the spec marks as its own). -/
def Obligations.InstructionMemoryIsSeenOnlyByTheFetch : Prop :=
  ∀ s t u : State, AgreeOffInstructions s t → s.fetch = t.fetch → Sys2Proof.Machine.step s = .next u →
    ∃ v, Sys2Proof.Machine.step t = .next v ∧ AgreeOffInstructions u v ∧ v.imem = t.imem

/-- R33: data memory reaches registers and pc only through loads. -/
def Obligations.DataMemoryIsSeenOnlyByLoads : Prop :=
  ∀ s t u : State, s.memBits = t.memBits → s.x = t.x → s.pc = t.pc → s.imem = t.imem → opcodeOf s.fetch ≠ opLOAD →
    Sys2Proof.Machine.step s = .next u →
    ∃ v, Sys2Proof.Machine.step t = .next v ∧ v.memBits = u.memBits ∧ v.x = u.x ∧ v.pc = u.pc ∧ v.imem = u.imem

/-- R54, the source's property: a word stored and loaded again, through any base and displacement that give the same address, is
the exact word; when the access is dropped (strict bound D7, 0 by D8, log 11) the store leaves data memory as it was and the load
gives 0. That the stored word is `x[rs2]` is general knowledge (R183, log 13). -/
def Obligations.StoreWordThenLoadWordGivesTheWord : Prop :=
  ∀ (rs2 rs1 rb rd : RegIdx) (imm immb : BitVec 12) (s : State),
    s.dataAddr rb (immI immb) = s.dataAddr rs1 (immS imm) →
    ∃ t u, Sys2Proof.Machine.exec (.sw rs2 rs1 imm) s = .next t ∧ Sys2Proof.Machine.exec (.lw rd rb immb) t = .next u ∧
      (s.dataAddr rs1 (immS imm) + 4 > s.memSize → SameData s t) ∧
      u.readReg rd =
        if rd = 0#5 then 0#32 else if s.dataAddr rs1 (immS imm) + 4 ≤ s.memSize then s.readReg rs2 else 0#32

/-- R42: mixed widths see the bytes: a byte loaded, with either extension, from inside a stored word, and a word loaded over a
stored half-word (an inference the spec marks as its own). That the stored bytes are those of `x[rs2]` is general knowledge
(R132, log 13); the bound is D7 (log 11). -/
def Obligations.MixedWidthAccessesSeeTheBytes : Prop :=
  (∀ (rs2 rs1 rb rd : RegIdx) (imm immb : BitVec 12) (s : State) (k : Nat), k < 4 →
    s.dataAddr rs1 (immS imm) + 4 ≤ s.memSize → s.dataAddr rb (immI immb) = s.dataAddr rs1 (immS imm) + k →
    ∃ t u v, Sys2Proof.Machine.exec (.sw rs2 rs1 imm) s = .next t ∧ Sys2Proof.Machine.exec (.lbu rd rb immb) t = .next u ∧
      Sys2Proof.Machine.exec (.lb rd rb immb) t = .next v ∧
      (let stored : Byte := (s.readReg rs2).extractLsb' (8 * k) 8
       u.readReg rd = (if rd = 0#5 then 0#32 else BitVec.ofNat 32 stored.toNat) ∧
       v.readReg rd = if rd = 0#5 then 0#32 else BitVec.ofInt 32 stored.toInt)) ∧
  ∀ (rs2 rs1 rb rd : RegIdx) (imm immb : BitVec 12) (s : State),
    s.dataAddr rb (immI immb) + 4 ≤ s.memSize → s.dataAddr rs1 (immS imm) = s.dataAddr rb (immI immb) + 2 →
    ∃ t u, Sys2Proof.Machine.exec (.sh rs2 rs1 imm) s = .next t ∧ Sys2Proof.Machine.exec (.lw rd rb immb) t = .next u ∧
      u.readReg rd = if rd = 0#5 then 0#32 else
        (s.readReg rs2).extractLsb' 8 8 ++ (s.readReg rs2).extractLsb' 0 8 ++
          s.dataByte (s.dataAddr rb (immI immb) + 1) ++ s.dataByte (s.dataAddr rb (immI immb))

/-! Invariants, reset and construction -/

/-- The invariant of the machine is kept by every step, from every state that meets it, whether a run reaches it or not
(R7, R20, R21, R33; the list form is the model's own). -/
def Obligations.EveryStepKeepsTheInvariant : Prop :=
  ∀ s t : State, s.Inv → Sys2Proof.Machine.step s = .next t → t.Inv

/-- R36, R240: the state after reset: the values the spec gives (registers and pc by its decisions D5 and D4, log 3), no
instruction byte listed (log 4), the reference memory size (R7, log 2), and the invariant. -/
def Obligations.ResetStateIsZeroAndMeetsTheInvariant : Prop :=
  (∀ r : RegIdx, State.reset.readReg r = 0#32) ∧ State.reset.pc = 0#32 ∧ (∀ a, State.reset.dataByte a = 0#8) ∧
  State.reset.imem = [] ∧ State.reset.memSize = 4096 ∧ State.reset.Inv

/-- R240, R7: a core constructed with any `MEM_SIZE` the spec allows, a power of two of at least 4 (D6, log 2), from an image of
that many bytes, holds exactly the image, is otherwise as after reset, and meets the invariant; another parameter or an image of
another length is refused (D4, D5, logs 3 and 4). -/
def Obligations.ConstructedCoreHoldsTheImage : Prop :=
  ∀ (memBits : Nat) (image : List Byte),
    (4 ≤ 2 ^ memBits → image.length = 2 ^ memBits → ∃ s, State.construct memBits image = some s ∧ s.Inv ∧
      s.memSize = 2 ^ memBits ∧ (∀ a (h : a < image.length), s.instrByte a = image[a]) ∧
      s.x = State.reset.x ∧ s.pc = State.reset.pc ∧ s.dmem = State.reset.dmem) ∧
    (2 ^ memBits < 4 ∨ image.length ≠ 2 ^ memBits → State.construct memBits image = none)

/-- Two memories in canonical form that read alike everywhere in the memory are the same data (R33; the form is the model's). -/
def Obligations.CanonicalMemoriesThatReadAlikeAreEqual : Prop :=
  ∀ (size : Nat) (m m' : Memory), Memory.wf size m → Memory.wf size m' →
    (∀ a < size, Memory.read m a = Memory.read m' a) → m = m'

/-! The end of a run -/

/-- R246: a bound on the pc at or above the last fetchable address decides nothing: the run is in the same state under any two
such bounds (`PC_LIMIT` is OPEN, D14, log 8). -/
def Obligations.HighPcLimitsDecideNothing : Prop :=
  ∀ (limit limit' fuel : Nat) (s : State), s.memSize - 4 ≤ limit → s.memSize - 4 ≤ limit' →
    (hostRun limit fuel s).state = (hostRun limit' fuel s).state

/-- R246, R247: where a run ends, and why: a state the steps lead to, beyond the bound, halted, or at a word whose step is the
fault; never by an abort (D14, log 8). -/
def Obligations.RunsEndAtTheLimitAHaltOrAFault : Prop :=
  ∀ (limit fuel : Nat) (s t : State) (why : Stop), hostRun limit fuel s = .stopped why t →
    Reaches s t ∧
    match why with
    | .limit => t.pc.toNat > limit
    | .halt => t.pc.toNat ≤ limit ∧ t.halted = true
    | .abort => False
    | .unsupported r => t.pc.toNat ≤ limit ∧ Sys2Proof.Machine.step t = .fault (.unsupported r)
end

