-- ==== Sys2Proof/Laws/State.lean ====
section
/-! SUPPORT. One lemma per field per update of State, and what each accessor reads after it. -/

namespace Sys2Proof.Machine

variable (s : State) (r rd : RegIdx) (v t : Word) (m : Memory) (a : Nat)

@[simp] theorem setPc_x : (s.setPc t).x = s.x := rfl
@[simp] theorem setPc_pc : (s.setPc t).pc = t := rfl
@[simp] theorem setPc_memBits : (s.setPc t).memBits = s.memBits := rfl
@[simp] theorem setPc_memSize : (s.setPc t).memSize = s.memSize := rfl
@[simp] theorem setPc_imem : (s.setPc t).imem = s.imem := rfl
@[simp] theorem setPc_dmem : (s.setPc t).dmem = s.dmem := rfl
@[simp] theorem readReg_setPc : (s.setPc t).readReg r = s.readReg r := rfl
@[simp] theorem dataByte_setPc : (s.setPc t).dataByte a = s.dataByte a := rfl
@[simp] theorem instrByte_setPc : (s.setPc t).instrByte a = s.instrByte a := rfl

@[simp] theorem advance_x : s.advance.x = s.x := rfl
@[simp] theorem advance_pc : s.advance.pc = s.pc + 4#32 := rfl
@[simp] theorem advance_memBits : s.advance.memBits = s.memBits := rfl
@[simp] theorem advance_memSize : s.advance.memSize = s.memSize := rfl
@[simp] theorem advance_imem : s.advance.imem = s.imem := rfl
@[simp] theorem advance_dmem : s.advance.dmem = s.dmem := rfl
@[simp] theorem readReg_advance : s.advance.readReg r = s.readReg r := rfl
@[simp] theorem dataByte_advance : s.advance.dataByte a = s.dataByte a := rfl
@[simp] theorem instrByte_advance : s.advance.instrByte a = s.instrByte a := rfl

@[simp] theorem setDmem_x : (s.setDmem m).x = s.x := rfl
@[simp] theorem setDmem_pc : (s.setDmem m).pc = s.pc := rfl
@[simp] theorem setDmem_memBits : (s.setDmem m).memBits = s.memBits := rfl
@[simp] theorem setDmem_memSize : (s.setDmem m).memSize = s.memSize := rfl
@[simp] theorem setDmem_imem : (s.setDmem m).imem = s.imem := rfl
@[simp] theorem setDmem_dmem : (s.setDmem m).dmem = m := rfl
@[simp] theorem readReg_setDmem : (s.setDmem m).readReg r = s.readReg r := rfl
@[simp] theorem dataByte_setDmem : (s.setDmem m).dataByte a = Memory.read m a := rfl
@[simp] theorem instrByte_setDmem : (s.setDmem m).instrByte a = s.instrByte a := rfl
@[simp] theorem setDmem_self : s.setDmem s.dmem = s := rfl

@[simp] theorem writeReg_pc : (s.writeReg rd v).pc = s.pc := by unfold State.writeReg; split <;> rfl
@[simp] theorem writeReg_memBits : (s.writeReg rd v).memBits = s.memBits := by unfold State.writeReg; split <;> rfl
@[simp] theorem writeReg_memSize : (s.writeReg rd v).memSize = s.memSize := by simp [State.memSize]
@[simp] theorem writeReg_imem : (s.writeReg rd v).imem = s.imem := by unfold State.writeReg; split <;> rfl
@[simp] theorem writeReg_dmem : (s.writeReg rd v).dmem = s.dmem := by unfold State.writeReg; split <;> rfl
@[simp] theorem writeReg_zero : s.writeReg 0#5 v = s := rfl
@[simp] theorem dataByte_writeReg : (s.writeReg rd v).dataByte a = s.dataByte a := by simp [State.dataByte]
@[simp] theorem instrByte_writeReg : (s.writeReg rd v).instrByte a = s.instrByte a := by simp [State.instrByte]

@[simp] theorem readReg_zero : s.readReg 0#5 = 0#32 := rfl

/-- The register-file law of R22. -/
theorem readReg_writeReg : (s.writeReg rd v).readReg r = if r = rd ∧ r ≠ 0#5 then v else s.readReg r := by
  by_cases hr : r = 0#5
  · subst hr; simp
  by_cases hd : rd = 0#5
  · subst hd; simp [hr]
  have key : (s.x.set rd.toNat v rd.isLt).get r.toFin = if r = rd then v else s.x.get r.toFin := by
    show (s.x.set rd.toNat v rd.isLt)[r.toNat]'r.isLt = if r = rd then v else s.x[r.toNat]'r.isLt
    rw [Vector.getElem_set]
    by_cases h : rd = r
    · subst h; simp
    · rw [if_neg (fun hn => h (BitVec.eq_of_toNat_eq hn)), if_neg (fun he => h he.symm)]
  simp [State.writeReg, State.readReg, hr, hd, key]

@[simp] theorem writeReg_slot_zero : (s.writeReg rd v).x.get 0 = s.x.get 0 := by
  by_cases hd : rd = 0#5
  · subst hd; rfl
  · simp only [State.writeReg, hd, if_false]
    show (s.x.set rd.toNat v rd.isLt)[0] = s.x[0]
    rw [Vector.getElem_set, if_neg]
    exact fun h => hd (BitVec.eq_of_toNat_eq h)

end Sys2Proof.Machine
end

