-- ==== Sys2Proof/Laws/Memory.lean ====
section
/-! SUPPORT. What the memory operations read and that they keep the canonical form. -/

namespace Sys2Proof.Machine

variable {size : Nat} (m : Memory) (a b n : Nat) (v : Byte)

@[simp] theorem read_nil : Memory.read [] a = Config.unlistedByte := rfl

theorem read_insertCell : Memory.read (Memory.insertCell a v m) b =
    if b = a ∧ ∀ c ∈ m, c.1 = a → a < c.1 then v else Memory.read (Memory.insertCell a v m) b := by
  split
  · next h =>
    obtain ⟨rfl, h⟩ := h
    induction m with
    | nil => simp [Memory.insertCell, Memory.read]
    | cons c m ih =>
      obtain ⟨k, u⟩ := c
      simp only [List.mem_cons, forall_eq_or_imp] at h
      unfold Memory.insertCell
      split
      · simp [Memory.read]
      · have : k ≠ b := fun hk => by have := h.1 hk; omega
        simp [Memory.read, this, ih h.2]
  · rfl

theorem read_insertCell_ne (h : b ≠ a) : Memory.read (Memory.insertCell a v m) b = Memory.read m b := by
  induction m with
  | nil => simp [Memory.insertCell, Memory.read, h.symm]
  | cons c m ih =>
    obtain ⟨k, u⟩ := c
    unfold Memory.insertCell
    split <;> simp [Memory.read, h.symm, ih]

theorem read_filter : Memory.read (m.filter fun c => c.1 != a) b =
    if b = a then Config.unlistedByte else Memory.read m b := by
  induction m with
  | nil => simp
  | cons c m ih =>
    obtain ⟨k, u⟩ := c
    by_cases hk : k = a
    · subst hk
      simp only [bne_self_eq_false, Bool.false_eq_true, not_false_eq_true, List.filter_cons_of_neg, ih, Memory.read]
      by_cases hb : b = k
      · simp [hb]
      · simp [hb, Ne.symm hb]
    · rw [List.filter_cons_of_pos (by simpa using hk)]
      simp only [Memory.read, ih]
      by_cases hb : k = b
      · subst hb; simp [hk]
      · simp [hb]

/-- Read after write, in every memory: the byte written at its address, the old byte everywhere else. -/
theorem read_write : Memory.read (Memory.write m a v) b = if b = a then v else Memory.read m b := by
  unfold Memory.write
  by_cases hv : v = Config.unlistedByte
  · simp only [hv, if_true, read_filter]
  · simp only [hv, if_false]
    by_cases hb : b = a
    · subst hb
      rw [read_insertCell, if_pos, if_pos rfl]
      refine ⟨rfl, fun c hc h => ?_⟩
      simp [h] at hc
    · rw [read_insertCell_ne _ _ _ _ hb, read_filter, if_neg hb, if_neg hb]

theorem insertCell_mem {m : Memory} {a : Nat} {v : Byte} {c : Host.Cell} (h : c ∈ Memory.insertCell a v m) :
    c = (a, v) ∨ c ∈ m := by
  induction m with
  | nil => simpa [Memory.insertCell] using h
  | cons d m ih =>
    unfold Memory.insertCell at h
    split at h
    · simpa using h
    · rcases List.mem_cons.mp h with rfl | h
      · simp
      · rcases ih h with h | h <;> simp [h]

theorem insertCell_rising {m : Memory} {a : Nat} {v : Byte} (hm : m.Pairwise (fun c d => c.1 < d.1))
    (ha : ∀ c ∈ m, c.1 ≠ a) : (Memory.insertCell a v m).Pairwise (fun c d => c.1 < d.1) := by
  induction m with
  | nil => simp [Memory.insertCell]
  | cons d m ih =>
    obtain ⟨k, u⟩ := d
    obtain ⟨hk, hm⟩ := List.pairwise_cons.mp hm
    unfold Memory.insertCell
    split
    · next hlt =>
      refine List.pairwise_cons.mpr ⟨fun c hc => ?_, List.pairwise_cons.mpr ⟨hk, hm⟩⟩
      rcases List.mem_cons.mp hc with rfl | hc
      · exact hlt
      · exact Nat.lt_trans hlt (hk c hc)
    · next hlt =>
      refine List.pairwise_cons.mpr ⟨fun c hc => ?_, ih hm fun c hc => ha c (List.mem_cons_of_mem _ hc)⟩
      rcases insertCell_mem hc with rfl | hc
      · have := ha (k, u) (by simp); simp at this; show k < a; omega
      · exact hk c hc

/-- `Memory.write` keeps the canonical form, inside the memory. -/
theorem write_wf {m : Memory} (hm : Memory.wf size m) {a : Nat} (ha : a < size) (v : Byte) :
    Memory.wf size (Memory.write m a v) := by
  have hf : (m.filter fun c => c.1 != a).Pairwise (fun c d => c.1 < d.1) := hm.1.filter _
  have hc : ∀ c ∈ m.filter fun c => c.1 != a, c.1 ≠ a ∧ c ∈ m := fun c h => by
    have := List.mem_filter.mp h
    exact ⟨by simpa using this.2, this.1⟩
  unfold Memory.write
  by_cases hv : v = Config.unlistedByte
  · simp only [hv, if_true]
    exact ⟨hf, fun c h => hm.2 c (hc c h).2⟩
  · simp only [hv, if_false]
    refine ⟨insertCell_rising hf fun c h => (hc c h).1, fun c h => ?_⟩
    rcases insertCell_mem h with rfl | h
    · exact ⟨ha, hv⟩
    · exact hm.2 c (hc c h).2

/-- What a run of byte writes leaves at every address. -/
theorem read_writeBytes (vs : List Byte) : Memory.read (Memory.writeBytes m a vs) b =
    if h : a ≤ b ∧ b < a + vs.length then vs[b - a]'(by omega) else Memory.read m b := by
  induction vs generalizing m a with
  | nil => rw [dif_neg (by simp)]; rfl
  | cons w vs ih =>
    rw [Memory.writeBytes, ih]
    by_cases h1 : a + 1 ≤ b ∧ b < a + 1 + vs.length
    · have h2 : a ≤ b ∧ b < a + (w :: vs).length := by simp; omega
      rw [dif_pos h1, dif_pos h2]
      have : b - a = (b - (a + 1)) + 1 := by omega
      simp [this]
    · rw [dif_neg h1, read_write]
      by_cases hb : b = a
      · subst hb; rw [if_pos rfl, dif_pos (by simp)]; simp
      · rw [if_neg hb, dif_neg (by simp; omega)]

theorem writeBytes_wf (vs : List Byte) {m : Memory} (hm : Memory.wf size m) {a : Nat}
    (ha : a + vs.length ≤ size) : Memory.wf size (Memory.writeBytes m a vs) := by
  induction vs generalizing m a with
  | nil => exact hm
  | cons w vs ih =>
    simp only [List.length_cons] at ha
    exact ih (write_wf hm (by omega) w) (by omega)

@[simp] theorem leBytes_length (n : Nat) (v : Word) : (leBytes n v).length = n := by
  induction n generalizing v with
  | zero => rfl
  | succ n ih => simp [leBytes, ih]

/-- Byte `k` of a value is its bits `[8k+7:8k]` (R40). -/
theorem leBytes_getElem (n : Nat) (v : Word) (k : Nat) (hk : k < (leBytes n v).length) :
    (leBytes n v)[k] = v.extractLsb' (8 * k) 8 := by
  induction n generalizing v k with
  | zero => simp at hk
  | succ n ih =>
    cases k with
    | zero => apply BitVec.eq_of_getLsbD_eq; intro i hi; simp [leBytes, hi]
    | succ k =>
      simp only [leBytes, List.getElem_cons_succ]
      rw [ih]
      apply BitVec.eq_of_getLsbD_eq
      intro i hi
      simp [hi]
      congr 1
      omega

/-- The four-byte little-endian word, most significant byte on the left (R40, R41). -/
theorem leWord_four (b0 b1 b2 b3 : Byte) : leWord [b0, b1, b2, b3] = b3 ++ b2 ++ b1 ++ b0 := by
  apply BitVec.eq_of_getLsbD_eq
  intro i hi
  simp only [leWord, BitVec.getLsbD_or, BitVec.getLsbD_shiftLeft, BitVec.getLsbD_setWidth, BitVec.getLsbD_append]
  interval_cases i <;> simp

theorem leWord_one (b0 : Byte) : leWord [b0] = b0.setWidth 32 := by
  simp [leWord]

/-- The bytes of a word give the word back (R54). -/
theorem leWord_leBytes (v : Word) : leWord (leBytes 4 v) = v := by
  simp only [leBytes, leWord_four]
  apply BitVec.eq_of_getLsbD_eq
  intro i hi
  simp only [BitVec.getLsbD_append, BitVec.getLsbD_setWidth, BitVec.getLsbD_ushiftRight]
  interval_cases i <;> simp

/-- The four bytes that a word access reads. -/
theorem readBytes_four : Memory.readBytes m a 4 =
    [Memory.read m a, Memory.read m (a + 1), Memory.read m (a + 2), Memory.read m (a + 3)] := rfl

/-- `MemRead(addr, 4)` (R46). -/
theorem memRead_four : memRead size m a 4 = if a + 4 > size then none else
    some (Memory.read m (a + 3) ++ Memory.read m (a + 2) ++ Memory.read m (a + 1) ++ Memory.read m a) := by
  simp only [memRead, readBytes_four, leWord_four]

/-- `MemRead(addr, 1)` (R46). -/
theorem memRead_one : memRead size m a 1 = if a + 1 > size then none else
    some ((Memory.read m a).setWidth 32) := by
  simp only [memRead, Memory.readBytes, leWord_one]

/-- `MemWrite(addr, n, v)` (R47), at every address of every memory. -/
theorem read_memWrite (w : Word) : Memory.read (memWrite size m a n w) b =
    if a + n ≤ size ∧ a ≤ b ∧ b < a + n then w.extractLsb' (8 * (b - a)) 8 else Memory.read m b := by
  unfold memWrite
  by_cases h : a + n > size
  · rw [if_pos h, if_neg (by omega)]
  · rw [if_neg h, read_writeBytes]
    simp only [leBytes_length]
    by_cases hb : a ≤ b ∧ b < a + n
    · rw [dif_pos hb, if_pos ⟨by omega, hb⟩, leBytes_getElem]
    · rw [dif_neg hb, if_neg (by tauto)]

theorem memWrite_wf {m : Memory} (hm : Memory.wf size m) (w : Word) : Memory.wf size (memWrite size m a n w) := by
  unfold memWrite
  split
  · exact hm
  · exact writeBytes_wf _ hm (by simp; omega)

/-- The mask of a power of two is the remainder (R44, D6). -/
theorem memAddr_eq_mod (k : Nat) (ea : Word) : memAddr (2 ^ k) ea = ea.toNat % 2 ^ k := by
  unfold memAddr
  rw [BitVec.toNat_and, BitVec.toNat_ofNat]
  by_cases hk : k ≤ 32
  · have h1 : 2 ^ k ≤ 2 ^ 32 := Nat.pow_le_pow_right (by decide) hk
    have h0 : 0 < 2 ^ k := Nat.two_pow_pos k
    rw [Nat.mod_eq_of_lt (by omega)]
    exact Nat.and_two_pow_sub_one_eq_mod ea.toNat k
  · obtain ⟨j, rfl⟩ : ∃ j, k = 32 + j := ⟨k - 32, by omega⟩
    have h0 : 0 < 2 ^ j := Nat.two_pow_pos j
    have h1 : 2 ^ (32 + j) = 2 ^ 32 * 2 ^ j := Nat.pow_add 2 32 j
    have h2 : (2 ^ (32 + j) - 1) % 2 ^ 32 = 2 ^ 32 - 1 := by
      rw [h1]; generalize 2 ^ j = m at h0; omega
    rw [h2, Nat.and_two_pow_sub_one_eq_mod, Nat.mod_eq_of_lt ea.isLt, Nat.mod_eq_of_lt]
    exact Nat.lt_of_lt_of_le ea.isLt (Nat.pow_le_pow_right (by decide) (by omega))

theorem dataAddr_lt (s : State) (rs1 : RegIdx) (imm : Word) : s.dataAddr rs1 imm < s.memSize := by
  unfold State.dataAddr State.memSize
  rw [memAddr_eq_mod]; exact Nat.mod_lt _ (Nat.two_pow_pos _)

/-- A byte load is never dropped (R46). -/
theorem loadData_one (s : State) {a : Nat} (ha : a < s.memSize) : s.loadData a 1 = (s.dataByte a).setWidth 32 := by
  simp only [State.loadData, memRead_one, if_neg (Nat.not_lt.mpr ha : ¬ a + 1 > s.memSize)]
  rfl

/-- A word load gives four bytes, or 0 when dropped (R46, R130). -/
theorem loadData_four (s : State) (a : Nat) : s.loadData a 4 = if a + 4 ≤ s.memSize then
    s.dataByte (a + 3) ++ s.dataByte (a + 2) ++ s.dataByte (a + 1) ++ s.dataByte a else 0#32 := by
  simp only [State.loadData, memRead_four]
  by_cases h : a + 4 > s.memSize
  · rw [if_pos h, if_neg (by omega)]; rfl
  · rw [if_neg h, if_pos (by omega)]; rfl

end Sys2Proof.Machine
end

