-- ==== Sys2Proof/Laws/Step.lean ====
section
/-! SUPPORT. What the shared endings of instructions do, and what any instruction can do to the state, each said once. -/

namespace Sys2Proof.Machine

/-- The zero flag is equality (R125). -/
theorem zeroFlag_eq (a b : Word) : zeroFlag a b = decide (a = b) := by
  by_cases h : a = b
  · simp [zeroFlag, h]
  · have : ¬ a - b = 0#32 := fun hz => h (by bv_omega)
    simp [zeroFlag, h, this]

variable (s t : State) (rd : RegIdx) (v : Word)

/-- Everything `retire` does: one register, pc + 4, both memories as they were. -/
theorem retire_next : retire rd v s = .next (s.writeReg rd v).advance := rfl

theorem retire_writesOnly : WritesOnly rd v s (s.writeReg rd v).advance :=
  fun r => readReg_writeReg s r rd v

theorem retire_sameMemories : SameData s (s.writeReg rd v).advance ∧ SameInstructions s (s.writeReg rd v).advance :=
  ⟨fun a => by simp, by simp, fun a => by simp⟩

/-- Everything `storeData` does to data memory, at every address. -/
theorem storeData_dataByte (a n b : Nat) (w : Word) :
    (s.setDmem (memWrite s.memSize s.dmem a n w)).advance.dataByte b =
      if a + n ≤ s.memSize ∧ a ≤ b ∧ b < a + n then w.extractLsb' (8 * (b - a)) 8 else s.dataByte b :=
  read_memWrite s.dmem a b n w

/-- The most an instruction does: it writes one register, does at most one store, and sets the pc. -/
def EffectShape (s t : State) : Prop :=
  ∃ (rd : RegIdx) (v p : Word) (m : Memory), t = ((s.writeReg rd v).setDmem m).setPc p ∧
    (m = s.dmem ∨ ∃ (a n : Nat) (w : Word), m = memWrite s.memSize s.dmem a n w)

theorem retire_shape (h : retire rd v s = .next t) : EffectShape s t := by
  cases h
  exact ⟨rd, v, s.pc + 4#32, s.dmem, by rw [← writeReg_dmem s rd v, setDmem_self]; simp [State.advance], .inl rfl⟩

theorem setPc_shape (p : Word) : EffectShape s (s.setPc p) := ⟨0#5, 0#32, p, s.dmem, rfl, .inl rfl⟩

theorem storeData_shape (a n : Nat) (w : Word) (h : storeData a n w s = .next t) : EffectShape s t := by
  cases h
  exact ⟨0#5, 0#32, s.pc + 4#32, _, rfl, .inr ⟨a, n, w, rfl⟩⟩

/-- Everything an instruction can do. -/
theorem exec_shape {i : Instr} {s t : State} (h : exec i s = .next t) : EffectShape s t := by
  cases i with
  | add rd rs1 rs2 => exact retire_shape _ _ _ _ h
  | sub rd rs1 rs2 => exact retire_shape _ _ _ _ h
  | sra rd rs1 rs2 => exact retire_shape _ _ _ _ h
  | and rd rs1 rs2 => exact retire_shape _ _ _ _ h
  | addi rd rs1 imm => exact retire_shape _ _ _ _ h
  | sltiu rd rs1 imm => exact retire_shape _ _ _ _ h
  | ori rd rs1 imm => exact retire_shape _ _ _ _ h
  | lui rd imm20 => exact retire_shape _ _ _ _ h
  | lb rd rs1 imm => exact retire_shape _ _ _ _ h
  | lw rd rs1 imm => exact retire_shape _ _ _ _ h
  | lbu rd rs1 imm => exact retire_shape _ _ _ _ h
  | sh rs2 rs1 imm => exact storeData_shape _ _ _ _ _ h
  | sw rs2 rs1 imm => exact storeData_shape _ _ _ _ _ h
  | bne rs1 rs2 offset f3 =>
    simp only [exec, execBne] at h
    split at h <;> cases h <;> exact setPc_shape _ _
  | jalr rd rs1 imm f3 =>
    cases h
    exact ⟨rd, _, _, s.dmem, by rw [← writeReg_dmem s rd (s.pc + 4#32), setDmem_self], .inl rfl⟩
  | halt => cases h; exact setPc_shape s s.pc
  | unsupportedOp f7 f3 rd rs1 rs2 => cases h
  | unsupportedOpimm f3 rd rs1 imm => cases h
  | unsupportedLoad f3 rd rs1 imm => cases h
  | unsupportedStore f3 rs2 rs1 imm => cases h
  | unrecognised op rest => cases h; exact setPc_shape _ _

end Sys2Proof.Machine
end

