-- ==== Sys2Proof/Laws/Datapath.lean ====
section
/-! SUPPORT. What the stages of a cycle do, and everything a cycle that gives a next state did. -/

namespace Sys2Proof.Machine

/-- Everything a cycle that gives a next state did, stage by stage (R145). -/
theorem cycle_next {s t : State} (h : cycle s = .next t) : s.fetch ≠ 0#32 ∧ ∃ ex mem,
    executeStage (controlTable (opcodeOf s.fetch)) (fieldDecode s.fetch) (immGen s.fetch) (s.readReg (rs1Of s.fetch))
      (s.readReg (rs2Of s.fetch)) = .ok ex ∧
    memoryStage s.memSize (controlTable (opcodeOf s.fetch)) (funct3Of s.fetch) ex.exOut (s.readReg (rs2Of s.fetch))
      s.dmem = .ok mem ∧
    t = (writebackStage (controlTable (opcodeOf s.fetch)) (rdOf s.fetch)
      (writebackData (controlTable (opcodeOf s.fetch)) s.pc ex.exOut mem.rdata) (s.setDmem mem.dmem)).setPc
        (nextPcOf (controlTable (opcodeOf s.fetch)) ex.zero s.pc (immGen s.fetch) (s.readReg (rs1Of s.fetch))) := by
  unfold cycle at h
  by_cases h0 : s.fetch = 0#32
  · simp [h0] at h
  refine ⟨h0, ?_⟩
  simp only [h0, if_false] at h
  split at h
  · next e _ => cases e <;> cases h
  · next ex hex =>
    split at h
    · next e _ => cases e <;> cases h
    · next mem hmem => cases h; exact ⟨ex, mem, hex, hmem, rfl⟩

/-- A cycle halts exactly on the sentinel (R103, R200). -/
theorem cycle_halt_iff (s : State) : cycle s = .halt ↔ s.fetch = 0#32 := by
  refine ⟨fun h => ?_, fun h => by simp [cycle, h]⟩
  by_contra h0
  unfold cycle at h
  simp only [h0, if_false] at h
  split at h
  · next e _ => cases e <;> cases h
  · split at h
    · next e _ => cases e <;> cases h
    · cases h

variable (c : ControlVector) (rd : RegIdx) (v : Word) (s : State)

/-- Writeback with `RegWrite` set is the register write: to `x0` both do nothing (R135). -/
theorem writebackStage_enabled (h : c.regWrite = true) : writebackStage c rd v s = s.writeReg rd v := by
  by_cases h0 : rd = 0#5
  · subst h0; simp [writebackStage]
  · simp [writebackStage, writebackEnable, h, h0]

theorem writebackStage_disabled (h : c.regWrite = false) : writebackStage c rd v s = s := by
  simp [writebackStage, writebackEnable, h]

@[simp] theorem writebackStage_dmem : (writebackStage c rd v s).dmem = s.dmem := by
  unfold writebackStage; split <;> simp

@[simp] theorem writebackStage_imem : (writebackStage c rd v s).imem = s.imem := by
  unfold writebackStage; split <;> simp

@[simp] theorem writebackStage_memBits : (writebackStage c rd v s).memBits = s.memBits := by
  unfold writebackStage; split <;> simp

@[simp] theorem writebackStage_pc : (writebackStage c rd v s).pc = s.pc := by
  unfold writebackStage; split <;> simp

/-- The opcodes that set each enable of the control table (R107). -/
theorem controlTable_enables (op : Opcode) :
    ((controlTable op).regWrite = true ↔ op ∈ [opOP, opOPIMM, opLUI, opLOAD, opJALR]) ∧
    ((controlTable op).memRead = true ↔ op = opLOAD) ∧ ((controlTable op).memWrite = true ↔ op = opSTORE) ∧
    ((controlTable op).branch = true ↔ op = opBRANCH) ∧ ((controlTable op).nextPc = .indirect ↔ op = opJALR) := by
  revert op; decide

end Sys2Proof.Machine
end

