-- ==== Sys2Proof/Laws/Encoding.lean ====
section
/-! SUPPORT. What each field of a packed word is, that the fields of a layout give its word back,
and the decoder's case analysis. -/

namespace Sys2Proof

open Sys2Proof.Machine

variable (f7 : Funct7) (rs2 rs1 : RegIdx) (f3 : Funct3) (rd : RegIdx) (op : Opcode)
variable (imm : BitVec 12) (off : BitVec 13) (imm20 : BitVec 20) (rest : BitVec 25)

@[simp] theorem packR_opcode : opcodeOf (packR f7 rs2 rs1 f3 rd op) = op := by
  apply BitVec.eq_of_getLsbD_eq; intro i hi
  simp only [opcodeOf, packR, BitVec.getLsbD_extractLsb', BitVec.getLsbD_append]
  interval_cases i <;> simp

@[simp] theorem packR_rd : rdOf (packR f7 rs2 rs1 f3 rd op) = rd := by
  apply BitVec.eq_of_getLsbD_eq; intro i hi
  simp only [rdOf, packR, BitVec.getLsbD_extractLsb', BitVec.getLsbD_append]
  interval_cases i <;> simp

@[simp] theorem packR_funct3 : funct3Of (packR f7 rs2 rs1 f3 rd op) = f3 := by
  apply BitVec.eq_of_getLsbD_eq; intro i hi
  simp only [funct3Of, packR, BitVec.getLsbD_extractLsb', BitVec.getLsbD_append]
  interval_cases i <;> simp

@[simp] theorem packR_rs1 : rs1Of (packR f7 rs2 rs1 f3 rd op) = rs1 := by
  apply BitVec.eq_of_getLsbD_eq; intro i hi
  simp only [rs1Of, packR, BitVec.getLsbD_extractLsb', BitVec.getLsbD_append]
  interval_cases i <;> simp

@[simp] theorem packR_rs2 : rs2Of (packR f7 rs2 rs1 f3 rd op) = rs2 := by
  apply BitVec.eq_of_getLsbD_eq; intro i hi
  simp only [rs2Of, packR, BitVec.getLsbD_extractLsb', BitVec.getLsbD_append]
  interval_cases i <;> simp

@[simp] theorem packR_funct7 : funct7Of (packR f7 rs2 rs1 f3 rd op) = f7 := by
  apply BitVec.eq_of_getLsbD_eq; intro i hi
  simp only [funct7Of, packR, BitVec.getLsbD_extractLsb', BitVec.getLsbD_append]
  interval_cases i <;> simp

@[simp] theorem packI_opcode : opcodeOf (packI imm rs1 f3 rd op) = op := by
  apply BitVec.eq_of_getLsbD_eq; intro i hi
  simp only [opcodeOf, packI, BitVec.getLsbD_extractLsb', BitVec.getLsbD_append]
  interval_cases i <;> simp

@[simp] theorem packI_rd : rdOf (packI imm rs1 f3 rd op) = rd := by
  apply BitVec.eq_of_getLsbD_eq; intro i hi
  simp only [rdOf, packI, BitVec.getLsbD_extractLsb', BitVec.getLsbD_append]
  interval_cases i <;> simp

@[simp] theorem packI_funct3 : funct3Of (packI imm rs1 f3 rd op) = f3 := by
  apply BitVec.eq_of_getLsbD_eq; intro i hi
  simp only [funct3Of, packI, BitVec.getLsbD_extractLsb', BitVec.getLsbD_append]
  interval_cases i <;> simp

@[simp] theorem packI_rs1 : rs1Of (packI imm rs1 f3 rd op) = rs1 := by
  apply BitVec.eq_of_getLsbD_eq; intro i hi
  simp only [rs1Of, packI, BitVec.getLsbD_extractLsb', BitVec.getLsbD_append]
  interval_cases i <;> simp

@[simp] theorem packI_immI : immIOf (packI imm rs1 f3 rd op) = imm := by
  apply BitVec.eq_of_getLsbD_eq; intro i hi
  simp only [immIOf, packI, BitVec.getLsbD_extractLsb', BitVec.getLsbD_append]
  interval_cases i <;> simp

@[simp] theorem packS_opcode : opcodeOf (packS imm rs2 rs1 f3 op) = op := by
  apply BitVec.eq_of_getLsbD_eq; intro i hi
  simp only [opcodeOf, packS, BitVec.getLsbD_extractLsb', BitVec.getLsbD_append]
  interval_cases i <;> simp

@[simp] theorem packS_funct3 : funct3Of (packS imm rs2 rs1 f3 op) = f3 := by
  apply BitVec.eq_of_getLsbD_eq; intro i hi
  simp only [funct3Of, packS, BitVec.getLsbD_extractLsb', BitVec.getLsbD_append]
  interval_cases i <;> simp

@[simp] theorem packS_rs1 : rs1Of (packS imm rs2 rs1 f3 op) = rs1 := by
  apply BitVec.eq_of_getLsbD_eq; intro i hi
  simp only [rs1Of, packS, BitVec.getLsbD_extractLsb', BitVec.getLsbD_append]
  interval_cases i <;> simp

@[simp] theorem packS_rs2 : rs2Of (packS imm rs2 rs1 f3 op) = rs2 := by
  apply BitVec.eq_of_getLsbD_eq; intro i hi
  simp only [rs2Of, packS, BitVec.getLsbD_extractLsb', BitVec.getLsbD_append]
  interval_cases i <;> simp

@[simp] theorem packS_immS : immSOf (packS imm rs2 rs1 f3 op) = imm := by
  apply BitVec.eq_of_getLsbD_eq; intro i hi
  simp only [immSOf, packS, BitVec.getLsbD_extractLsb', BitVec.getLsbD_append]
  interval_cases i <;> simp

@[simp] theorem packB_opcode : opcodeOf (packB off rs2 rs1 f3 op) = op := by
  apply BitVec.eq_of_getLsbD_eq; intro i hi
  simp only [opcodeOf, packB, BitVec.getLsbD_extractLsb', BitVec.getLsbD_append]
  interval_cases i <;> simp

@[simp] theorem packB_funct3 : funct3Of (packB off rs2 rs1 f3 op) = f3 := by
  apply BitVec.eq_of_getLsbD_eq; intro i hi
  simp only [funct3Of, packB, BitVec.getLsbD_extractLsb', BitVec.getLsbD_append]
  interval_cases i <;> simp

@[simp] theorem packB_rs1 : rs1Of (packB off rs2 rs1 f3 op) = rs1 := by
  apply BitVec.eq_of_getLsbD_eq; intro i hi
  simp only [rs1Of, packB, BitVec.getLsbD_extractLsb', BitVec.getLsbD_append]
  interval_cases i <;> simp

@[simp] theorem packB_rs2 : rs2Of (packB off rs2 rs1 f3 op) = rs2 := by
  apply BitVec.eq_of_getLsbD_eq; intro i hi
  simp only [rs2Of, packB, BitVec.getLsbD_extractLsb', BitVec.getLsbD_append]
  interval_cases i <;> simp

@[simp] theorem packU_opcode : opcodeOf (packU imm20 rd op) = op := by
  apply BitVec.eq_of_getLsbD_eq; intro i hi
  simp only [opcodeOf, packU, BitVec.getLsbD_extractLsb', BitVec.getLsbD_append]
  interval_cases i <;> simp

@[simp] theorem packU_rd : rdOf (packU imm20 rd op) = rd := by
  apply BitVec.eq_of_getLsbD_eq; intro i hi
  simp only [rdOf, packU, BitVec.getLsbD_extractLsb', BitVec.getLsbD_append]
  interval_cases i <;> simp

@[simp] theorem packU_immU : immUOf (packU imm20 rd op) = imm20 := by
  apply BitVec.eq_of_getLsbD_eq; intro i hi
  simp only [immUOf, packU, BitVec.getLsbD_extractLsb', BitVec.getLsbD_append]
  interval_cases i <;> simp

/-- The branch offset comes back whole when it is even (R75, R80). -/
theorem packB_immB (h : off.getLsbD 0 = false) : immBOf (packB off rs2 rs1 f3 op) = off := by
  have h0 : off[0] = false := by simpa using h
  apply BitVec.eq_of_getLsbD_eq; intro i hi
  simp only [immBOf, packB, BitVec.getLsbD_extractLsb', BitVec.getLsbD_append]
  interval_cases i <;> simp [h0]

@[simp] theorem packRest_opcode : opcodeOf (rest ++ op) = op := by
  apply BitVec.eq_of_getLsbD_eq; intro i hi
  simp only [opcodeOf, BitVec.getLsbD_extractLsb', BitVec.getLsbD_append]
  interval_cases i <;> simp

@[simp] theorem packRest_rest : (rest ++ op : BitVec (25 + 7)).extractLsb' 7 25 = rest := by
  apply BitVec.eq_of_getLsbD_eq; intro i hi
  simp only [BitVec.getLsbD_extractLsb', BitVec.getLsbD_append]
  interval_cases i <;> simp

variable (w : Word)

theorem packR_fields : packR (funct7Of w) (rs2Of w) (rs1Of w) (funct3Of w) (rdOf w) (opcodeOf w) = w := by
  apply BitVec.eq_of_getLsbD_eq; intro i hi
  simp only [opcodeOf, rdOf, funct3Of, rs1Of, rs2Of, funct7Of, packR, BitVec.getLsbD_extractLsb', BitVec.getLsbD_append]
  interval_cases i <;> simp

theorem packI_fields : packI (immIOf w) (rs1Of w) (funct3Of w) (rdOf w) (opcodeOf w) = w := by
  apply BitVec.eq_of_getLsbD_eq; intro i hi
  simp only [opcodeOf, rdOf, funct3Of, rs1Of, immIOf, packI, BitVec.getLsbD_extractLsb', BitVec.getLsbD_append]
  interval_cases i <;> simp

theorem packS_fields : packS (immSOf w) (rs2Of w) (rs1Of w) (funct3Of w) (opcodeOf w) = w := by
  apply BitVec.eq_of_getLsbD_eq; intro i hi
  simp only [opcodeOf, funct3Of, rs1Of, rs2Of, immSOf, packS, BitVec.getLsbD_extractLsb', BitVec.getLsbD_append]
  interval_cases i <;> simp

theorem packB_fields : packB (immBOf w) (rs2Of w) (rs1Of w) (funct3Of w) (opcodeOf w) = w := by
  apply BitVec.eq_of_getLsbD_eq; intro i hi
  simp only [opcodeOf, funct3Of, rs1Of, rs2Of, immBOf, packB, BitVec.getLsbD_extractLsb', BitVec.getLsbD_append]
  interval_cases i <;> simp

theorem packU_fields : packU (immUOf w) (rdOf w) (opcodeOf w) = w := by
  apply BitVec.eq_of_getLsbD_eq; intro i hi
  simp only [opcodeOf, rdOf, immUOf, packU, BitVec.getLsbD_extractLsb', BitVec.getLsbD_append]
  interval_cases i <;> simp

theorem packRest_fields : (w.extractLsb' 7 25 ++ opcodeOf w : BitVec (25 + 7)) = w := by
  apply BitVec.eq_of_getLsbD_eq; intro i hi
  simp only [opcodeOf, BitVec.getLsbD_extractLsb', BitVec.getLsbD_append]
  interval_cases i <;> simp

/-- A word with a non-zero opcode is not the halt sentinel (R89). -/
theorem ne_zero_of_opcode {w : Word} (h : opcodeOf w ≠ 0#7) : w ≠ 0#32 := by
  rintro rfl; exact h rfl

theorem immBOf_even (w : Word) : (immBOf w).getLsbD 0 = false := by
  simp only [immBOf, BitVec.getLsbD_append]
  simp

/-- The decoder's choice at each of the seven opcodes (R89). -/
theorem decodeWord_recognised (w : Word) :
    (opcodeOf w = opOP → decodeWord w = decodeOp w) ∧
    (opcodeOf w = opOPIMM → decodeWord w = decodeOpimm w) ∧
    (opcodeOf w = opLUI → decodeWord w = .lui (rdOf w) (immUOf w)) ∧
    (opcodeOf w = opLOAD → decodeWord w = decodeLoad w) ∧
    (opcodeOf w = opSTORE → decodeWord w = decodeStore w) ∧
    (opcodeOf w = opBRANCH → decodeWord w = .bne (rs1Of w) (rs2Of w) (immBOf w) (funct3Of w)) ∧
    (opcodeOf w = opJALR → decodeWord w = .jalr (rdOf w) (rs1Of w) (immIOf w) (funct3Of w)) := by
  refine ⟨?_, ?_, ?_, ?_, ?_, ?_, ?_⟩ <;> intro h <;>
    (have hw : w ≠ 0#32 := ne_zero_of_opcode (by rw [h]; decide)) <;>
    simp [decodeWord, hw, h, opOP, opOPIMM, opLUI, opLOAD, opSTORE, opBRANCH, opJALR]

variable {w}

theorem decodeWord_op (h : opcodeOf w = opOP) : decodeWord w = decodeOp w := (decodeWord_recognised w).1 h
theorem decodeWord_opimm (h : opcodeOf w = opOPIMM) : decodeWord w = decodeOpimm w := (decodeWord_recognised w).2.1 h
theorem decodeWord_lui (h : opcodeOf w = opLUI) : decodeWord w = .lui (rdOf w) (immUOf w) := (decodeWord_recognised w).2.2.1 h
theorem decodeWord_load (h : opcodeOf w = opLOAD) : decodeWord w = decodeLoad w := (decodeWord_recognised w).2.2.2.1 h
theorem decodeWord_store (h : opcodeOf w = opSTORE) : decodeWord w = decodeStore w := (decodeWord_recognised w).2.2.2.2.1 h
theorem decodeWord_branch (h : opcodeOf w = opBRANCH) :
    decodeWord w = .bne (rs1Of w) (rs2Of w) (immBOf w) (funct3Of w) := (decodeWord_recognised w).2.2.2.2.2.1 h
theorem decodeWord_jalr (h : opcodeOf w = opJALR) :
    decodeWord w = .jalr (rdOf w) (rs1Of w) (immIOf w) (funct3Of w) := (decodeWord_recognised w).2.2.2.2.2.2 h

theorem decodeWord_unrecognised (hw : w ≠ 0#32) (h : recognised (opcodeOf w) = false) :
    decodeWord w = .unrecognised (opcodeOf w) (w.extractLsb' 7 25) := by
  simp only [recognised, Bool.or_eq_false_iff, beq_eq_false_iff_ne] at h
  simp [decodeWord, hw, h]

/-- Every word is the sentinel, has one of the seven opcodes, or is unrecognised (R89). -/
theorem word_cases (w : Word) :
    w = 0#32 ∨ opcodeOf w = opOP ∨ opcodeOf w = opOPIMM ∨ opcodeOf w = opLUI ∨ opcodeOf w = opLOAD ∨ opcodeOf w = opSTORE ∨
      opcodeOf w = opBRANCH ∨ opcodeOf w = opJALR ∨ (w ≠ 0#32 ∧ recognised (opcodeOf w) = false) := by
  by_cases hw : w = 0#32
  · exact .inl hw
  · simp only [recognised, Bool.or_eq_false_iff, beq_eq_false_iff_ne]
    tauto

/-! What a row of the opcode table asks of a word: its mask covers the opcode, the opcode and `funct3`, or these and `funct7`. -/

variable (w : Word) (m : String) (k : Nat)

theorem hits_opcode : TableRow.hits ⟨m, op.setWidth 32, 0x7F#32, k⟩ w = (opcodeOf w == op) := by
  have e : w &&& 0x7F#32 = (opcodeOf w).setWidth 32 := by
    apply BitVec.eq_of_getLsbD_eq; intro i hi
    simp only [opcodeOf, BitVec.getLsbD_and, BitVec.getLsbD_setWidth, BitVec.getLsbD_extractLsb']
    interval_cases i <;> simp
  rw [TableRow.hits, Bool.eq_iff_iff, beq_iff_eq, beq_iff_eq]
  show w &&& 0x7F#32 = _ ↔ _
  rw [e]
  exact ⟨fun h => by simpa using congrArg (BitVec.setWidth 7) h, fun h => by rw [h]⟩

theorem hits_funct3 : TableRow.hits ⟨m, op.setWidth 32 ||| (f3.setWidth 32 <<< 12), 0x707F#32, k⟩ w =
    (opcodeOf w == op && funct3Of w == f3) := by
  have e : w &&& 0x707F#32 = (opcodeOf w).setWidth 32 ||| ((funct3Of w).setWidth 32 <<< 12) := by
    apply BitVec.eq_of_getLsbD_eq; intro i hi
    simp only [opcodeOf, funct3Of, BitVec.getLsbD_and, BitVec.getLsbD_or, BitVec.getLsbD_shiftLeft, BitVec.getLsbD_setWidth,
      BitVec.getLsbD_extractLsb']
    interval_cases i <;> simp
  rw [TableRow.hits, Bool.eq_iff_iff, Bool.and_eq_true, beq_iff_eq, beq_iff_eq, beq_iff_eq]
  show w &&& 0x707F#32 = _ ↔ _
  rw [e]
  refine ⟨fun h => ?_, fun h => by rw [h.1, h.2]⟩
  have key := fun n => congrArg (fun x : Word => x.getLsbD n) h
  simp only [BitVec.getLsbD_or, BitVec.getLsbD_shiftLeft, BitVec.getLsbD_setWidth] at key
  constructor
  · apply BitVec.eq_of_getLsbD_eq; intro i hi
    have := key i
    interval_cases i <;> simpa using this
  · apply BitVec.eq_of_getLsbD_eq; intro i hi
    have := key (i + 12)
    interval_cases i <;> simpa using this

theorem hits_funct7 :
    TableRow.hits ⟨m, op.setWidth 32 ||| (f3.setWidth 32 <<< 12) ||| (f7.setWidth 32 <<< 25), 0xFE00707F#32, k⟩ w =
      (opcodeOf w == op && funct3Of w == f3 && funct7Of w == f7) := by
  have e : w &&& 0xFE00707F#32 =
      (opcodeOf w).setWidth 32 ||| ((funct3Of w).setWidth 32 <<< 12) ||| ((funct7Of w).setWidth 32 <<< 25) := by
    apply BitVec.eq_of_getLsbD_eq; intro i hi
    simp only [opcodeOf, funct3Of, funct7Of, BitVec.getLsbD_and, BitVec.getLsbD_or, BitVec.getLsbD_shiftLeft,
      BitVec.getLsbD_setWidth, BitVec.getLsbD_extractLsb']
    interval_cases i <;> simp
  rw [TableRow.hits, Bool.eq_iff_iff, Bool.and_eq_true, Bool.and_eq_true, beq_iff_eq, beq_iff_eq, beq_iff_eq, beq_iff_eq]
  show w &&& 0xFE00707F#32 = _ ↔ _
  rw [e]
  refine ⟨fun h => ?_, fun h => by rw [h.1.1, h.1.2, h.2]⟩
  have key := fun n => congrArg (fun x : Word => x.getLsbD n) h
  simp only [BitVec.getLsbD_or, BitVec.getLsbD_shiftLeft, BitVec.getLsbD_setWidth] at key
  refine ⟨⟨?_, ?_⟩, ?_⟩
  · apply BitVec.eq_of_getLsbD_eq; intro i hi
    have := key i
    interval_cases i <;> simpa using this
  · apply BitVec.eq_of_getLsbD_eq; intro i hi
    have := key (i + 12)
    interval_cases i <;> simpa using this
  · apply BitVec.eq_of_getLsbD_eq; intro i hi
    have := key (i + 25)
    interval_cases i <;> simpa using this

end Sys2Proof
end

