-- ==== Sys2Proof/Laws/PerInstr.lean ====
section
/-! SUPPORT. The per-instruction family RoundTrip: a well-formed instruction's word decodes to it. -/

namespace Sys2Proof.Laws.RoundTrip

open Sys2Proof.Machine

/-- The decoder reads the instruction back from its word. -/
def Statement (i : Instr) : Prop := i.wf = true → decodeWord (encode i) = i

theorem add (rd : RegIdx) (rs1 : RegIdx) (rs2 : RegIdx) : Statement (.add rd rs1 rs2) := by
  intro _
  rw [encode, decodeWord_op (by simp)]
  simp [decodeOp, f7ADD, f3ADD]

theorem sub (rd : RegIdx) (rs1 : RegIdx) (rs2 : RegIdx) : Statement (.sub rd rs1 rs2) := by
  intro _
  rw [encode, decodeWord_op (by simp)]
  simp [decodeOp, f7ADD, f3ADD, f7SUB, f3SUB]

theorem sra (rd : RegIdx) (rs1 : RegIdx) (rs2 : RegIdx) : Statement (.sra rd rs1 rs2) := by
  intro _
  rw [encode, decodeWord_op (by simp)]
  simp [decodeOp, f7ADD, f3ADD, f7SUB, f3SUB, f7SRA, f3SRA]

theorem and (rd : RegIdx) (rs1 : RegIdx) (rs2 : RegIdx) : Statement (.and rd rs1 rs2) := by
  intro _
  rw [encode, decodeWord_op (by simp)]
  simp [decodeOp, f7ADD, f3ADD, f7SUB, f3SUB, f7SRA, f3SRA, f7AND, f3AND]

theorem addi (rd : RegIdx) (rs1 : RegIdx) (imm : BitVec 12) : Statement (.addi rd rs1 imm) := by
  intro _
  rw [encode, decodeWord_opimm (by simp)]
  simp [decodeOpimm, f3ADDI]

theorem sltiu (rd : RegIdx) (rs1 : RegIdx) (imm : BitVec 12) : Statement (.sltiu rd rs1 imm) := by
  intro _
  rw [encode, decodeWord_opimm (by simp)]
  simp [decodeOpimm, f3ADDI, f3SLTIU]

theorem ori (rd : RegIdx) (rs1 : RegIdx) (imm : BitVec 12) : Statement (.ori rd rs1 imm) := by
  intro _
  rw [encode, decodeWord_opimm (by simp)]
  simp [decodeOpimm, f3ADDI, f3SLTIU, f3ORI]

theorem lui (rd : RegIdx) (imm20 : BitVec 20) : Statement (.lui rd imm20) := by
  intro _
  rw [encode, decodeWord_lui (by simp)]
  simp

theorem lb (rd : RegIdx) (rs1 : RegIdx) (imm : BitVec 12) : Statement (.lb rd rs1 imm) := by
  intro _
  rw [encode, decodeWord_load (by simp)]
  simp [decodeLoad, f3LB]

theorem lw (rd : RegIdx) (rs1 : RegIdx) (imm : BitVec 12) : Statement (.lw rd rs1 imm) := by
  intro _
  rw [encode, decodeWord_load (by simp)]
  simp [decodeLoad, f3LB, f3LW]

theorem lbu (rd : RegIdx) (rs1 : RegIdx) (imm : BitVec 12) : Statement (.lbu rd rs1 imm) := by
  intro _
  rw [encode, decodeWord_load (by simp)]
  simp [decodeLoad, f3LB, f3LW, f3LBU]

theorem sh (rs2 : RegIdx) (rs1 : RegIdx) (imm : BitVec 12) : Statement (.sh rs2 rs1 imm) := by
  intro _
  rw [encode, decodeWord_store (by simp)]
  simp [decodeStore, f3SH]

theorem sw (rs2 : RegIdx) (rs1 : RegIdx) (imm : BitVec 12) : Statement (.sw rs2 rs1 imm) := by
  intro _
  rw [encode, decodeWord_store (by simp)]
  simp [decodeStore, f3SH, f3SW]

theorem bne (rs1 : RegIdx) (rs2 : RegIdx) (off : BitVec 13) (f3 : Funct3) : Statement (.bne rs1 rs2 off f3) := by
  intro h
  rw [encode, decodeWord_branch (by simp)]
  simp [packB_immB _ _ _ _ _ (by simpa [Instr.wf] using h)]

theorem jalr (rd : RegIdx) (rs1 : RegIdx) (imm : BitVec 12) (f3 : Funct3) : Statement (.jalr rd rs1 imm f3) := by
  intro _
  rw [encode, decodeWord_jalr (by simp)]
  simp

theorem halt : Statement (.halt) := by
  intro _; rfl

theorem unsupportedOp (f7 : Funct7) (f3 : Funct3) (rd : RegIdx) (rs1 : RegIdx) (rs2 : RegIdx) : Statement (.unsupportedOp f7 f3 rd rs1 rs2) := by
  intro h
  simp only [Instr.wf, listedOp, Bool.not_eq_true', Bool.or_eq_false_iff, Bool.and_eq_false_imp, beq_iff_eq, beq_eq_false_iff_ne] at h
  rw [encode, decodeWord_op (by simp)]
  simp only [decodeOp, packR_funct3]
  simp only [packR_funct7, packR_rd, packR_rs1, packR_rs2]
  rw [if_neg fun k => h.1.1.1 k.1 k.2, if_neg fun k => h.1.1.2 k.1 k.2, if_neg fun k => h.1.2 k.1 k.2,
    if_neg fun k => h.2 k.1 k.2]

theorem unsupportedOpimm (f3 : Funct3) (rd : RegIdx) (rs1 : RegIdx) (imm : BitVec 12) : Statement (.unsupportedOpimm f3 rd rs1 imm) := by
  intro h
  simp only [Instr.wf, listedOpimm, Bool.not_eq_true', Bool.or_eq_false_iff, beq_eq_false_iff_ne] at h
  rw [encode, decodeWord_opimm (by simp)]
  simp only [decodeOpimm, packI_funct3]
  simp [h]

theorem unsupportedLoad (f3 : Funct3) (rd : RegIdx) (rs1 : RegIdx) (imm : BitVec 12) : Statement (.unsupportedLoad f3 rd rs1 imm) := by
  intro h
  simp only [Instr.wf, listedLoad, Bool.not_eq_true', Bool.or_eq_false_iff, beq_eq_false_iff_ne] at h
  rw [encode, decodeWord_load (by simp)]
  simp only [decodeLoad, packI_funct3]
  simp [h]

theorem unsupportedStore (f3 : Funct3) (rs2 : RegIdx) (rs1 : RegIdx) (imm : BitVec 12) : Statement (.unsupportedStore f3 rs2 rs1 imm) := by
  intro h
  simp only [Instr.wf, listedStore, Bool.not_eq_true', Bool.or_eq_false_iff, beq_eq_false_iff_ne] at h
  rw [encode, decodeWord_store (by simp)]
  simp only [decodeStore, packS_funct3]
  simp [h]

theorem unrecognised (op : Opcode) (rest : BitVec 25) : Statement (.unrecognised op rest) := by
  intro h
  simp only [Instr.wf, recognised, Bool.and_eq_true, Bool.not_eq_true', Bool.or_eq_false_iff, Bool.and_eq_false_imp, beq_iff_eq,
    beq_eq_false_iff_ne] at h
  have hw : (rest ++ op : Word) ≠ 0#32 := by
    intro hz
    have h1 : op = 0#7 := by rw [← packRest_opcode op rest, hz]; rfl
    exact h.2 h1 (by rw [← packRest_rest op rest, hz]; rfl)
  simp only [encode, decodeWord, packRest_opcode, packRest_rest, hw, h, if_false]

end Sys2Proof.Laws.RoundTrip
end

