-- ==== Sys2Proof/Tests/Slice0.lean ====
section
/-! SUPPORT. The model's own tests: expected results are those of spec/95_test_vectors.md and of the instruction rules' own
examples (hexadecimal as there), and for every obligation with hypotheses a state and operands that meet them. -/

namespace Sys2Proof.Tests

open Sys2Proof Sys2Proof.Machine

/-! WellFormed refuses each kind of ill-formed term. -/

theorem test_wf_odd_branch_offset : (Instr.bne 5 6 0x1FF9 1).wf = false ∧ (Instr.bne 5 6 0x1FF8 1).wf = true := by decide
theorem test_wf_unsupportedOp_listed : (Instr.unsupportedOp 0 0 5 6 7).wf = false ∧ (Instr.unsupportedOp 0x20 0 5 6 7).wf = false ∧
    (Instr.unsupportedOp 0x20 5 5 6 7).wf = false ∧ (Instr.unsupportedOp 0 7 5 6 7).wf = false ∧
    (Instr.unsupportedOp 0x20 7 5 6 7).wf = true := by decide
theorem test_wf_unsupportedOpimm_listed : (Instr.unsupportedOpimm 0 5 6 1).wf = false ∧ (Instr.unsupportedOpimm 3 5 6 1).wf = false ∧
    (Instr.unsupportedOpimm 6 5 6 1).wf = false ∧ (Instr.unsupportedOpimm 5 5 6 1).wf = true := by decide
theorem test_wf_unsupportedLoad_listed : (Instr.unsupportedLoad 0 5 6 1).wf = false ∧ (Instr.unsupportedLoad 2 5 6 1).wf = false ∧
    (Instr.unsupportedLoad 4 5 6 1).wf = false ∧ (Instr.unsupportedLoad 1 5 6 1).wf = true := by decide
theorem test_wf_unsupportedStore_listed : (Instr.unsupportedStore 1 5 6 1).wf = false ∧ (Instr.unsupportedStore 2 5 6 1).wf = false ∧
    (Instr.unsupportedStore 0 5 6 1).wf = true := by decide
theorem test_wf_unrecognised : (Instr.unrecognised 0x33 0).wf = false ∧ (Instr.unrecognised 0x67 9).wf = false ∧
    (Instr.unrecognised 0 0).wf = false ∧ (Instr.unrecognised 0 1).wf = true := by decide

/-! Each constructor's decoding, its word written out field by field from its rule's encoding line. -/

theorem test_decode_add : decodeWord 0b0000000_00111_00110_000_00101_0110011 = .add 5 6 7 := by decide
theorem test_decode_sub : decodeWord 0b0100000_00111_00110_000_00101_0110011 = .sub 5 6 7 := by decide
theorem test_decode_sra : decodeWord 0b0100000_00111_00110_101_00101_0110011 = .sra 5 6 7 := by decide
theorem test_decode_and : decodeWord 0b0000000_00111_00110_111_00101_0110011 = .and 5 6 7 := by decide
theorem test_decode_addi : decodeWord 0b111111111111_00110_000_00101_0010011 = .addi 5 6 0xFFF := by decide
theorem test_decode_sltiu : decodeWord 0b000000000001_00110_011_00101_0010011 = .sltiu 5 6 1 := by decide
theorem test_decode_ori : decodeWord 0b000011110000_00110_110_00101_0010011 = .ori 5 6 0x0F0 := by decide
theorem test_decode_lui : decodeWord 0b10101011110011011110_00101_0110111 = .lui 5 0xABCDE := by decide
theorem test_decode_lb : decodeWord 0b111111111111_00110_000_00101_0000011 = .lb 5 6 0xFFF := by decide
theorem test_decode_lw : decodeWord 0b000000001000_00110_010_00101_0000011 = .lw 5 6 8 := by decide
theorem test_decode_lbu : decodeWord 0b000000000011_00110_100_00101_0000011 = .lbu 5 6 3 := by decide
theorem test_decode_sh : decodeWord 0b1111111_00111_00110_001_11110_0100011 = .sh 7 6 0xFFE := by decide
theorem test_decode_sw : decodeWord 0b0000000_00111_00110_010_01000_0100011 = .sw 7 6 8 := by decide
theorem test_decode_bne : decodeWord 0b1_111111_00110_00101_001_1100_1_1100011 = .bne 5 6 0x1FF8 1 ∧
    decodeWord 0x7E629FE3 = .bne 5 6 0x0FFE 1 ∧ decodeWord 0x80629063 = .bne 5 6 0x1000 1 := by decide
theorem test_decode_jalr : decodeWord 0b111111111101_00101_000_00001_1100111 = .jalr 1 5 0xFFD 0 := by decide
theorem test_decode_halt : decodeWord 0x00000000 = .halt := by decide
theorem test_decode_unsupportedOp : decodeWord 0x007342B3 = .unsupportedOp 0 4 5 6 7 ∧
    decodeWord 0x80000033 = .unsupportedOp 0x40 0 0 0 0 := by decide
theorem test_decode_unsupportedOpimm : decodeWord 0x40435293 = .unsupportedOpimm 5 5 6 0x404 := by decide
theorem test_decode_unsupportedLoad : decodeWord 0x00031283 = .unsupportedLoad 1 5 6 0 := by decide
theorem test_decode_unsupportedStore : decodeWord 0x00730023 = .unsupportedStore 0 7 6 0 := by decide
theorem test_decode_unrecognised : decodeWord 0x00000073 = .unrecognised 0x73 0 ∧ decodeWord 0x00000080 = .unrecognised 0 1 := by
  decide

theorem test_decode_table_word : decodeTableWord 32 0x33 = some (.add 0 0 0) ∧
    decodeTableWord 32 0x23 = some (.unsupportedStore 0 0 0 0) := by
  decide
theorem test_decode_truncated : decode [0x13, 0x05, 0x50] = .error .truncated := rfl

/-! One step of each instruction. -/

/-- A core with the given pc, registers and data bytes. -/
def core (pc : Word) (regs : List (RegIdx × Word)) (bytes : List (Nat × Byte)) : State :=
  { regs.foldl (fun s r => s.writeReg r.1 r.2) State.reset with
    pc := pc, dmem := bytes.foldl (fun m b => Memory.write m b.1 b.2) [] }

/-- The step of the word `w` from `s` gives a next state of which `p` holds. -/
def gives (s : State) (w : Nat) (p : State → Bool) : Bool :=
  match step (s.withFetchWord 32 w) with
  | .next t => p t
  | .fault _ => false
  | .refused _ => false

/-- The step of the word `w` from `s` stops as unsupported for the reason. -/
def stopsFor (s : State) (w : Nat) (r : UnsupportedReason) : Bool :=
  match step (s.withFetchWord 32 w) with
  | .next _ => false
  | .fault f => f == .unsupported r
  | .refused _ => false

theorem test_add_wraps : gives (core 0 [(5, 0x80000001)] []) 0x005282B3 (fun t => t.readReg 5 == 2 && t.pc == 4) := by decide
theorem test_add_x0 : gives (core 0 [(6, 1), (7, 2)] []) 0x00730033 (fun t => t.readReg 0 == 0 && t.x == (core 0 [(6, 1), (7, 2)] []).x) := by
  decide
theorem test_sub : gives (core 0 [(6, 3), (7, 5)] []) 0x407302B3 (fun t => t.readReg 5 == 0xFFFFFFFE && t.pc == 4) := by decide
theorem test_sra_amount : gives (core 0 [(6, 0x80000000), (7, 0x21)] []) 0x407352B3 (fun t => t.readReg 5 == 0xC0000000) := by decide
theorem test_sra_amount_31 : gives (core 0 [(6, 0x12345678), (7, 0xFFFFFFFF)] []) 0x407352B3 (fun t => t.readReg 5 == 0) := by decide
theorem test_and : gives (core 0 [(6, 0xF0F0F0F0), (7, 0x0FF00FF0)] []) 0x007372B3 (fun t => t.readReg 5 == 0x00F000F0) := by decide
theorem test_addi_negative : gives (core 0 [(6, 5)] []) 0xFFF30293 (fun t => t.readReg 5 == 4 && t.pc == 4) := by decide
theorem test_addi_bit30 : gives (core 0 [(6, 1)] []) 0x40030293 (fun t => t.readReg 5 == 0x401) := by decide
theorem test_ori_sign_extends : gives (core 0 [(6, 0x12)] []) 0xF0036293 (fun t => t.readReg 5 == 0xFFFFFF12) := by decide
theorem test_sltiu_signed_immediate : gives (core 0 [(6, 0xFFFFFFFE)] []) 0xFFF33293 (fun t => t.readReg 5 == 1) := by decide
theorem test_sltiu_equal : gives (core 0 [(6, 0xFFFFFFFF), (5, 9)] []) 0xFFF33293 (fun t => t.readReg 5 == 0) := by decide
theorem test_lui : gives (core 0 [(5, 0xFFFFFFFF)] []) 0xABCDE2B7 (fun t => t.readReg 5 == 0xABCDE000 && t.pc == 4) := by decide
theorem test_lw_aliases : gives (core 0 [(6, 0x1100)] [(0x108, 0x78), (0x109, 0x56), (0x10A, 0x34), (0x10B, 0x92)]) 0x00832283
    (fun t => t.readReg 5 == 0x92345678) := by decide
theorem test_lw_dropped : gives (core 0 [(6, 0xFFD), (5, 0x55)] [(0xFFD, 1)]) 0x00032283 (fun t => t.readReg 5 == 0 && t.pc == 4) := by
  decide
theorem test_lw_last_word : gives (core 0 [(6, 0xFFC)] [(0xFFC, 1), (0xFFD, 2), (0xFFE, 3), (0xFFF, 4)]) 0x00032283
    (fun t => t.readReg 5 == 0x04030201) := by decide
theorem test_lb_sign : gives (core 0 [(6, 0x101)] [(0x100, 0x80)]) 0xFFF30283 (fun t => t.readReg 5 == 0xFFFFFF80) := by decide
theorem test_lbu_top : gives (core 0 [] [(0xFFF, 0xAB)]) 0xFFF04283 (fun t => t.readReg 5 == 0xAB) := by decide
theorem test_sw_bytes : gives (core 0 [(6, 0x100), (7, 0x92345678)] []) 0x00732423
    (fun t => t.dmem == [(0x108, 0x78), (0x109, 0x56), (0x10A, 0x34), (0x10B, 0x92)] && t.pc == 4) := by decide
theorem test_sw_dropped : gives (core 0 [(6, 0xFFE), (7, 0x92345678)] []) 0x00732023 (fun t => t.dmem == [] && t.pc == 4) := by decide
theorem test_sh_last : gives (core 0 [(6, 0xFFE), (7, 0xBEEF)] []) 0x00731023 (fun t => t.dmem == [(0xFFE, 0xEF), (0xFFF, 0xBE)]) := by
  decide
theorem test_sh_dropped : gives (core 0 [(6, 0xFFF), (7, 0xBEEF)] []) 0x00731023 (fun t => t.dmem == [] && t.pc == 4) := by decide
theorem test_bne_taken : gives (core 0x20 [(5, 1), (6, 2)] []) 0xFE629CE3 (fun t => t.pc == 0x18) := by decide
theorem test_bne_funct3_ignored : gives (core 0x20 [(5, 1), (6, 2)] []) 0x00628463 (fun t => t.pc == 0x28) ∧
    gives (core 0x20 [(5, 2), (6, 2)] []) 0x00628463 (fun t => t.pc == 0x24) := by decide
theorem test_jalr_clears_bit0 : gives (core 0x10 [(5, 0x44)] []) 0xFFD280E7 (fun t => t.readReg 1 == 0x14 && t.pc == 0x40) := by decide
theorem test_jalr_same_register : gives (core 0x10 [(1, 0x80)] []) 0x004080E7 (fun t => t.readReg 1 == 0x14 && t.pc == 0x84) := by
  decide
theorem test_halt : gives (core 0x10 [] []) 0 (fun t => t.pc == 0x10 && t.halted) := by decide
theorem test_unsupportedOp : stopsFor (core 0 [] []) 0x007342B3 .opFunct := by decide
theorem test_unsupportedOpimm : stopsFor (core 0 [] []) 0x40435293 .opimmFunct3 := by decide
theorem test_unsupportedLoad : stopsFor (core 0 [] []) 0x00031283 .loadWidth := by decide
theorem test_unsupportedStore : stopsFor (core 0 [] []) 0x00730023 .storeWidth := by decide
theorem test_ecall : gives (core 0x10 [] []) 0x73 (fun t => t.pc == 0x14 && t.x == State.reset.x) := by decide
theorem test_opcode_zero_is_no_halt : gives (core 0x10 [] []) 0x80 (fun t => t.pc == 0x14) := by decide

/-! The parameter `MEM_SIZE` (R7): a core of 4 bytes wraps addresses at 4 and halts at its second word. -/

/-- A core of 4 bytes in each memory that holds one word. -/
def tiny (w : Nat) (regs : List (RegIdx × Word)) : State :=
  ({ core 0 regs [] with memBits := 2 } : State).withFetchWord 32 w

theorem test_construct_tiny : State.construct 2 [0x13, 0x05, 0x50, 0x00] = some (tiny 0x00500513 []) ∧
    State.construct 1 [0x13, 0x05] = none ∧ State.construct 12 [0x13, 0x05, 0x50, 0x00] = none := by decide
theorem test_tiny_store_wraps : gives (tiny 0 [(6, 0x1002), (7, 0xBEEF)]) 0x00731023
    (fun t => t.dmem == [(2, 0xEF), (3, 0xBE)] && t.pc == 4 && t.halted) := by decide

/-! Witnesses: a state and operands that meet each obligation's hypotheses, clause by clause. -/

theorem gives_next {s : State} {w : Nat} {p : State → Bool} (h : gives s w p = true) :
    ∃ t, step (s.withFetchWord 32 w) = .next t ∧ p t = true := by
  unfold gives at h
  split at h
  · next t ht => exact ⟨t, ht, h⟩
  · cases h
  · cases h

/-- What `cycle` gives is of the given kind. -/
def cycleGives (s : State) (p : State → Bool) : Bool :=
  match cycle s with
  | .next t => p t
  | .halt => false
  | .abort => false
  | .unsupported _ => false

theorem cycleGives_next {s : State} {p : State → Bool} (h : cycleGives s p = true) : ∃ t, cycle s = .next t ∧ p t = true := by
  unfold cycleGives at h
  split at h
  · next t ht => exact ⟨t, ht, h⟩
  · cases h
  · cases h
  · cases h

/-- A core at pc 0 about to run `w`, `x5 = 1`, `x6 = 2`. -/
def at0 (w : Nat) : State := (core 0 [(5, 1), (6, 2)] []).withFetchWord 32 w

theorem at0_next {w : Nat} {p : State → Bool} (h : gives (core 0 [(5, 1), (6, 2)] []) w p = true) :
    ∃ t, step (at0 w) = .next t ∧ p t = true := gives_next h

/-- O1: the branch with the most negative offset, an instruction with a well-formedness condition. -/
theorem witness_DecodeOfEncodeIsTheInstruction : (Instr.bne 5 6 0x1000 7).wf = true ∧ (Instr.unrecognised 0 1).wf = true ∧
    (Instr.unsupportedStore 7 0 31 0xFFF).wf = true := by decide

/-- O3: rows of priorities 0 to 3. -/
theorem witness_DecodingFollowsTheOpcodeTable :
    (∃ r ∈ opcodeTable, r.priority = 0 ∧ r.selected 0 = true) ∧ (∃ r ∈ opcodeTable, r.priority = 1 ∧ r.selected 0x33 = true) ∧
    (∃ r ∈ opcodeTable, r.priority = 2 ∧ r.selected 0x23 = true) ∧ (∃ r ∈ opcodeTable, r.priority = 3 ∧ r.selected 0x80 = true) := by
  decide

/-- O7: a word of each clause, its immediate at an end of the range. -/
theorem witness_ImmediatesAreTheRulesBits :
    (opcodeOf 0x80030293 = opOPIMM ∧ immGen 0x80030293 = 0xFFFFF800) ∧ (opcodeOf 0x7FF30283 = opLOAD ∧ immGen 0x7FF30283 = 0x7FF) ∧
    (opcodeOf 0xFFD280E7 = opJALR ∧ immGen 0xFFD280E7 = 0xFFFFFFFD) ∧ (opcodeOf 0xFE732E23 = opSTORE ∧ immGen 0xFE732E23 = 0xFFFFFFFC) ∧
    (opcodeOf 0x800002B7 = opLUI ∧ immGen 0x800002B7 = 0x80000000) ∧
    opcodeOf 0x407352B3 ∉ [opOPIMM, opLOAD, opJALR, opSTORE, opBRANCH, opLUI] ∧
    opcodeOf 0xFFF0006F ∉ [opOPIMM, opLOAD, opJALR, opSTORE, opBRANCH, opLUI] := by decide

/-- O8: a branch word with the largest and one with the least offset, and registers that differ. -/
theorem witness_BranchImmediateIsTheScrambledEvenOffset :
    opcodeOf 0x7E629FE3 = opBRANCH ∧ immGen 0x7E629FE3 = 0xFFE ∧ opcodeOf 0x80629063 = opBRANCH ∧ immGen 0x80629063 = 0xFFFFF000 ∧
    (at0 0x7E629FE3).readReg (rs1Of 0x7E629FE3) ≠ (at0 0x7E629FE3).readReg (rs2Of 0x7E629FE3) := by decide

/-- O9: both ends of the range of widths. -/
theorem witness_SignExtensionIsShiftLeftThenArithmeticRight : (1 ≤ 1 ∧ 1 ≤ 32) ∧ (1 ≤ 32 ∧ 32 ≤ 32) := by decide

/-- O11: an execute stage that completes, with equal and with unequal operands, and a vector without a branch. -/
theorem witness_ZeroFlagIsEqualityOfTheOperands :
    executeStage (controlTable opOP) (fieldDecode 0x007372B3) 0 3 3 = .ok ⟨3, true⟩ ∧
    executeStage (controlTable opOP) (fieldDecode 0x007372B3) 0 1 2 = .ok ⟨0, false⟩ ∧
    (controlTable opOP).branch = false := ⟨rfl, rfl, rfl⟩

/-- O12: with and without the immediate selected. -/
theorem witness_ExecuteOutputIsAluResultOrUpperImmediate :
    executeStage (controlTable opLUI) (fieldDecode 0xABCDE2B7) 0xABCDE000 1 2 = .ok ⟨0xABCDE000, false⟩ ∧
    (controlTable opLUI).luiSel = true ∧
    executeStage (controlTable opOPIMM) (fieldDecode 0x40030293) 0x400 1 2 = .ok ⟨0x401, false⟩ ∧
    (controlTable opOPIMM).luiSel = false ∧ (fieldDecode 0xABCDE2B7).opcode = opLUI := ⟨rfl, rfl, rfl, rfl, rfl⟩

/-- O13: vectors for each candidate, and a cycle that ends in a next state. -/
theorem witness_PcArbitratorChoosesOneOfThree :
    (controlTable opJALR).nextPc = .indirect ∧ ((controlTable opBRANCH).nextPc = .seq ∧ (controlTable opBRANCH).branch = true) ∧
    (controlTable opOP).branch = false ∧ ∃ t, cycle (at0 0xFFD280E7) = .next t ∧ (t.pc == 0xFFFFFFFE) = true :=
  ⟨rfl, ⟨rfl, rfl⟩, rfl, cycleGives_next (by decide)⟩

/-- O14: a cycle that writes, one that writes `x0`, one with writeback disabled. -/
theorem witness_WritebackWritesOnlyRdWhenEnabled :
    (∃ t, cycle (at0 0xFFF30293) = .next t ∧ (t.readReg 5 == 1) = true) ∧
    (∃ t, cycle (at0 0x00730033) = .next t ∧ (rdOf (at0 0x00730033).fetch == 0) = true) ∧
    (∃ t, cycle (at0 0x00732423) = .next t ∧ ((controlTable (opcodeOf (at0 0x00732423).fetch)).regWrite == false) = true) :=
  ⟨cycleGives_next (by decide), cycleGives_next (by decide), cycleGives_next (by decide)⟩

/-- O17, O18: the last pc that fetches and the first that does not. -/
theorem witness_StepRunsTheDecodedInstruction :
    (let s := (core 0xFFC [] []).withFetchWord 32 0x00500513
     s.pc.toNat + 3 < s.memSize ∧ s.pc = 0xFFC ∧ decode [s.instrByte 0xFFC, s.instrByte 0xFFD, s.instrByte 0xFFE, s.instrByte 0xFFF] =
       .ok (.addi 10 0 5, [])) ∧
    (core 0xFFD [] []).pc.toNat + 3 ≥ (core 0xFFD [] []).memSize := by
  refine ⟨⟨by decide, by decide, rfl⟩, by decide⟩

theorem witness_FetchIsFourLittleEndianBytes :
    (core 0xFFC [] []).pc.toNat + 3 < (core 0xFFC [] []).memSize ∧ (core 0xFFD [] []).pc.toNat + 3 ≥ (core 0xFFD [] []).memSize ∧
    (core 0xFFFFFFFE [] []).pc.toNat + 3 ≥ (core 0xFFFFFFFE [] []).memSize := by decide

/-- O19: a word at the top of its range; a pc that fetches and one that does not; an address on each side of the four bytes. -/
theorem witness_PlacedWordIsTheFetchedWord :
    0xFFFFFFFF < 2 ^ 32 ∧ (core 0xFFC [] []).placeAddr.toNat = 0xFFC ∧ (core 0xFFD [] []).placeAddr.toNat = 0 ∧
    (3 < (core 4 [] []).placeAddr.toNat ∧ 8 ≥ (core 4 [] []).placeAddr.toNat + 4) ∧ (core 4 [] []).pc.toNat + 3 < (core 4 [] []).memSize ∧
    2 ≤ (core 4 [] []).memBits ∧ 2 ≤ (core 0xFFD [] []).memBits := by decide

theorem reset_inv : State.reset.Inv := ⟨by decide, by decide, by decide, by decide⟩

/-- O34: operands that differ and operands that are equal. -/
theorem witness_BneBranchesWhenUnequal :
    (at0 0).readReg 5 ≠ (at0 0).readReg 6 ∧ (at0 0).readReg 5 = (at0 0).readReg 5 := by decide

/-- O36: halted on the sentinel, and out of bounds at the first pc that is. -/
theorem witness_HaltedCoreStaysAsItIs :
    (at0 0).halted = true ∧ (core 0xFFD [] []).pc.toNat + 3 ≥ (core 0xFFD [] []).memSize ∧ (core 0xFFD [] []).halted = true ∧
    Reaches (at0 0) (at0 0) := ⟨by decide, by decide, by decide, .refl⟩

/-- O37: a word with opcode 0 that is not the sentinel, and the last opcode. -/
theorem witness_UnrecognisedWordsOnlyAdvanceThePc :
    ((at0 0x80).fetch ≠ 0#32 ∧
      opcodeOf (at0 0x80).fetch ∉ [0b0110011#7, 0b0010011#7, 0b0110111#7, 0b0000011#7, 0b0100011#7, 0b1100011#7, 0b1100111#7]) ∧
    ((at0 0xFFFFFFFF).fetch ≠ 0#32 ∧
      opcodeOf (at0 0xFFFFFFFF).fetch ∉
        [0b0110011#7, 0b0010011#7, 0b0110111#7, 0b0000011#7, 0b0100011#7, 0b1100011#7, 0b1100111#7]) := by decide

/-- O38: a fetched word of each of the four kinds. -/
theorem witness_UnsupportedFunctionCodesFault :
    (opcodeOf (at0 0x80000033).fetch = 0b0110011#7 ∧ (funct7Of (at0 0x80000033).fetch, funct3Of (at0 0x80000033).fetch) ∉
      [(0b0000000#7, 0b000#3), (0b0100000#7, 0b000#3), (0b0100000#7, 0b101#3), (0b0000000#7, 0b111#3)]) ∧
    (opcodeOf (at0 0x40435293).fetch = 0b0010011#7 ∧ funct3Of (at0 0x40435293).fetch ∉ [0b000#3, 0b011#3, 0b110#3]) ∧
    (opcodeOf (at0 0x00031283).fetch = 0b0000011#7 ∧ funct3Of (at0 0x00031283).fetch ∉ [0b000#3, 0b010#3, 0b100#3]) ∧
    (opcodeOf (at0 0x00730023).fetch = 0b0100011#7 ∧ funct3Of (at0 0x00730023).fetch ∉ [0b001#3, 0b010#3]) := by decide

/-- O39: a step that faults. -/
theorem witness_StepsStopOnlyOnUnlistedFunctionCodes : ∃ φ, step (at0 0x007342B3) = .fault φ := ⟨.unsupported .opFunct, rfl⟩

/-- O40: a step that changes a register. -/
theorem witness_StepChangesAtMostTheRdRegister :
    ∃ t, step (at0 0x00130293) = .next t ∧ (t.readReg 5 != (at0 0x00130293).readReg 5) = true := at0_next (by decide)

/-- O41: a step that is no halt, for each of the three ways. -/
theorem witness_PcMovesInOneOfThreeWays :
    ((at0 0x00629463).halted = false ∧ ∃ t, step (at0 0x00629463) = .next t ∧ (t.pc == 8) = true) ∧
    ((at0 0x004280E7).halted = false ∧ ∃ t, step (at0 0x004280E7) = .next t ∧ (t.pc == 4) = true) ∧
    ((at0 0xFFFFFFFF).halted = false ∧ ∃ t, step (at0 0xFFFFFFFF) = .next t ∧ (t.pc == 4) = true) :=
  ⟨⟨by decide, at0_next (by decide)⟩, ⟨by decide, at0_next (by decide)⟩, ⟨by decide, at0_next (by decide)⟩⟩

/-- O42, O43: an even pc and a state another step leads to. -/
theorem witness_EvenPcStaysEven : (at0 0x004280E7).pc.toNat % 2 = 0 ∧ ∃ t, Reaches (at0 0x004280E7) t ∧ (t.pc == 4) = true := by
  obtain ⟨t, ht, hp⟩ := at0_next (w := 0x004280E7) (p := fun t => t.pc == 4) (by decide)
  exact ⟨by decide, t, .step .refl ht, hp⟩

theorem witness_InstructionMemoryNeverChanges :
    (∃ t, Reaches (at0 0x00732423) t ∧ (t.pc == 4) = true) ∧
    (let s := at0 1
     let t := { s with dmem := [(0, 1)] }
     s.memBits = t.memBits ∧ s.imem = t.imem ∧ s.pc = t.pc ∧ s ≠ t) := by
  obtain ⟨t, ht, hp⟩ := at0_next (w := 0x00732423) (p := fun t => t.pc == 4) (by decide)
  exact ⟨⟨t, .step .refl ht, hp⟩, rfl, rfl, rfl, by decide⟩

/-- O44: a step that is no store, and a store of each width that changes the last byte it can. -/
theorem witness_OnlyStoresChangeDataMemory :
    (∃ t, step (at0 0x00130293) = .next t ∧ (opcodeOf (at0 0x00130293).fetch != opSTORE) = true) ∧
    (∃ t, step ((core 0 [(6, 0xFFE), (7, 0xBEEF)] []).withFetchWord 32 0x00731023) = .next t ∧ (t.dataByte 0xFFF != 0) = true) ∧
    (∃ t, step ((core 0 [(6, 0xFFC), (7, 0x92345678)] []).withFetchWord 32 0x00732023) = .next t ∧ (t.dataByte 0xFFF != 0) = true) :=
  ⟨at0_next (by decide), gives_next (by decide), gives_next (by decide)⟩

/-- O45: two states that differ in the byte after the word, and in nothing the fetch sees. -/
theorem witness_InstructionMemoryIsSeenOnlyByTheFetch :
    let s := at0 0x00130293
    let t := { s with imem := Memory.write s.imem 4 1 }
    AgreeOffInstructions s t ∧ s.fetch = t.fetch ∧ s.imem ≠ t.imem ∧ ∃ u, step s = .next u ∧ (u.pc == 4) = true :=
  ⟨⟨rfl, rfl, rfl, rfl⟩, by decide, by decide, at0_next (by decide)⟩

/-- O46: two states that differ in data memory, and a word that is no load. -/
theorem witness_DataMemoryIsSeenOnlyByLoads :
    let s := at0 0x00732423
    let t := { s with dmem := [(0, 1)] }
    s.memBits = t.memBits ∧ s.x = t.x ∧ s.pc = t.pc ∧ s.imem = t.imem ∧ s.dmem ≠ t.dmem ∧ opcodeOf s.fetch ≠ opLOAD ∧
      ∃ u, step s = .next u ∧ (u.pc == 4) = true :=
  ⟨rfl, rfl, rfl, rfl, by decide, by decide, at0_next (by decide)⟩

/-- O47: the last address that a word fits at and the first that it does not, each through two bases; `x0` and another register. -/
theorem witness_StoreWordThenLoadWordGivesTheWord :
    (let s := core 0 [(6, 0xFFC), (7, 0x1000)] []
     s.dataAddr 7 (immI 0xFFC) = s.dataAddr 6 (immS 0) ∧ s.dataAddr 6 (immS 0) + 4 ≤ s.memSize) ∧
    (let s := core 0 [(6, 0xFFD), (7, 0x1000)] []
     s.dataAddr 7 (immI 0xFFD) = s.dataAddr 6 (immS 0) ∧ s.dataAddr 6 (immS 0) + 4 > s.memSize) ∧
    (0 : RegIdx) = 0#5 ∧ (5 : RegIdx) ≠ 0#5 := by decide

/-- O48: the first and last byte of the last word, and a half-word at the end of it; `x0` and another register. -/
theorem witness_MixedWidthAccessesSeeTheBytes :
    (let s := core 0 [(6, 0xFFC), (7, 0xFFF), (8, 0xFFE)] []
     s.dataAddr 6 (immS 0) + 4 ≤ s.memSize ∧ s.dataAddr 6 (immI 0) = s.dataAddr 6 (immS 0) + 0 ∧
     s.dataAddr 7 (immI 0) = s.dataAddr 6 (immS 0) + 3 ∧
     s.dataAddr 6 (immI 0) + 4 ≤ s.memSize ∧ s.dataAddr 8 (immS 0) = s.dataAddr 6 (immI 0) + 2) ∧
    (0 : RegIdx) = 0#5 ∧ (5 : RegIdx) ≠ 0#5 := by decide

/-- O49: the state after reset meets the invariant, and so does one about to store. -/
theorem witness_EveryStepKeepsTheInvariant : (at0 0x00732423).Inv ∧ ∃ t, step (at0 0x00732423) = .next t ∧ (t.pc == 4) = true :=
  ⟨⟨by decide, by decide, by decide, by decide⟩, at0_next (by decide)⟩

/-- O51: an image of the right length for the least and for the reference size, a size too small, and an image of another length. -/
theorem witness_ConstructedCoreHoldsTheImage :
    (4 ≤ 2 ^ 2 ∧ ([1, 2, 3, 4] : List Byte).length = 2 ^ 2) ∧
    (4 ≤ 2 ^ 12 ∧ (List.replicate (2 ^ 12) (0x13 : Byte)).length = 2 ^ 12) ∧
    2 ^ 1 < 4 ∧ ([] : List Byte).length ≠ 2 ^ 12 :=
  ⟨by decide, ⟨by decide, List.length_replicate⟩, by decide, by decide⟩

/-- O52: memories with an entry at each end. -/
theorem witness_CanonicalMemoriesThatReadAlikeAreEqual :
    Memory.wf 0x1000 [(0, 1), (0xFFF, 2)] ∧ (Memory.write (Memory.write [] 0xFFF 2) 0 1) = [(0, 1), (0xFFF, 2)] := by decide

/-- O53: the least bound the statement takes, and `MEM_SIZE`. -/
theorem witness_HighPcLimitsDecideNothing : State.reset.memSize - 4 ≤ 4092 ∧ State.reset.memSize - 4 ≤ 4096 := by decide

/-- O54: a run that ends for each reason that ends one. -/
theorem witness_RunsEndAtTheLimitAHaltOrAFault :
    hostRun 4 1 (core 5 [] []) = .stopped .limit (core 5 [] []) ∧ hostRun 4 1 (at0 0) = .stopped .halt (at0 0) ∧
    hostRun 4 1 (at0 0x00730023) = .stopped (.unsupported .storeWidth) (at0 0x00730023) := ⟨rfl, rfl, rfl⟩

end Sys2Proof.Tests
end

section
/-! SUPPORT. What `State.construct` accepts and the core it answers (00_scope.md R7; 70_reset_and_hazards.md R240, R242). -/

namespace Sys2Proof.Machine

variable {memBits : Nat} {image : List Byte} {s : State}

theorem four_le_two_pow_iff : 4 ≤ 2 ^ memBits ↔ 2 ≤ memBits :=
  Nat.pow_le_pow_iff_right (a := 2) (n := 2) (by decide)

/-- Everything an accepting construction says of its arguments and its core. -/
theorem construct_eq_some_iff : State.construct memBits image = some s ↔
    (4 ≤ 2 ^ memBits ∧ image.length = 2 ^ memBits) ∧
      s = { State.reset with memBits := memBits, imem := Memory.writeBytes [] 0 image } := by
  rw [State.construct, Option.ite_none_right_eq_some, Option.some_inj, four_le_two_pow_iff, eq_comm (a := s)]

theorem construct_eq_none_iff :
    State.construct memBits image = none ↔ 2 ^ memBits < 4 ∨ image.length ≠ 2 ^ memBits := by
  rw [State.construct, ite_eq_right_iff, ← four_le_two_pow_iff]
  simp only [reduceCtorEq, imp_false, not_and_or, not_le]

/-- The image, written from address 0 up into an empty memory, stands at its own indices. -/
theorem instrByte_of_construct (hs : State.construct memBits image = some s) (a : Nat) (h : a < image.length) :
    s.instrByte a = image[a] := by
  obtain ⟨-, rfl⟩ := construct_eq_some_iff.mp hs
  rw [State.instrByte, read_writeBytes, dif_pos ⟨a.zero_le, by omega⟩]
  simp only [Nat.sub_zero]

/-- The image fills instruction memory exactly, so no byte of it falls outside. -/
theorem inv_of_construct (hs : State.construct memBits image = some s) : s.Inv := by
  obtain ⟨⟨hsize, hlen⟩, rfl⟩ := construct_eq_some_iff.mp hs
  have empty_wf : Memory.wf (2 ^ memBits) [] := ⟨.nil, nofun⟩
  exact {
    memBits_ge := four_le_two_pow_iff.mp hsize
    imem_wf := writeBytes_wf image empty_wf (by omega)
    dmem_wf := empty_wf
    slot_zero := rfl }

/-- Settles O51: acceptance and refusal are the two sides of `State.construct`'s one test, and an accepted core is the reset core
but for its size and the image written into its instruction memory. -/
theorem constructedCoreHoldsTheImage : Obligations.ConstructedCoreHoldsTheImage := by
  intro memBits image
  refine ⟨fun hsize hlen => ?_, construct_eq_none_iff.mpr⟩
  have hs := construct_eq_some_iff.mpr ⟨⟨hsize, hlen⟩, rfl⟩
  exact ⟨_, hs, inv_of_construct hs, rfl, instrByte_of_construct hs, rfl, rfl, rfl⟩

end Sys2Proof.Machine
end

section
/-! SUPPORT. A canonical memory is what it reads (10_state.md R33). -/

namespace Sys2Proof.Machine

variable {size : Nat} {m m' : Memory} {c : Host.Cell}

/-- The first entry of an address decides what it reads, and a rising list has no other. -/
theorem read_eq_of_mem (hm : m.Pairwise fun c d => c.1 < d.1) (hc : c ∈ m) : Memory.read m c.1 = c.2 := by
  induction m with
  | nil => cases hc
  | cons d m ih =>
    obtain ⟨head_lt, tail_rising⟩ := List.pairwise_cons.mp hm
    obtain rfl | hc := List.mem_cons.mp hc
    · simp [Memory.read]
    · rw [Memory.read, if_neg (Nat.ne_of_lt (head_lt c hc)), ih tail_rising hc]

/-- An address that does not read as unlisted is listed, with the byte it reads. -/
theorem mem_of_read_ne {a : Nat} (h : Memory.read m a ≠ Config.unlistedByte) : (a, Memory.read m a) ∈ m := by
  induction m with
  | nil => exact absurd rfl h
  | cons d m ih =>
    rw [Memory.read] at h ⊢
    split at h
    · next hd => subst hd; simp
    · next hd => rw [if_neg hd]; exact List.mem_cons_of_mem d (ih h)

/-- The cells of a canonical memory are the addresses inside it that hold something, with what they read. -/
theorem mem_iff_read (hm : Memory.wf size m) :
    c ∈ m ↔ c.1 < size ∧ c.2 ≠ Config.unlistedByte ∧ Memory.read m c.1 = c.2 := by
  obtain ⟨rising, listed⟩ := hm
  refine ⟨fun hc => ⟨(listed c hc).1, (listed c hc).2, read_eq_of_mem rising hc⟩, fun ⟨_, hne, hread⟩ => ?_⟩
  have hmem := mem_of_read_ne (m := m) (a := c.1) (hread ▸ hne)
  rwa [hread] at hmem

theorem nodup_of_rising (hm : m.Pairwise fun c d => c.1 < d.1) : m.Nodup :=
  hm.imp fun hlt heq => absurd (heq ▸ hlt) (Nat.lt_irrefl _)

/-- Settles O52: the two memories have the same cells, and a rising list is determined by its cells. -/
theorem canonicalMemoriesThatReadAlikeAreEqual : Obligations.CanonicalMemoriesThatReadAlikeAreEqual := by
  intro size m m' hm hm' hread
  have same_cells : ∀ c, c ∈ m ↔ c ∈ m' := fun c => by
    rw [mem_iff_read hm, mem_iff_read hm']
    exact and_congr_right fun hc => by rw [hread c.1 hc]
  have perm := (List.perm_ext_iff_of_nodup (nodup_of_rising hm.1) (nodup_of_rising hm'.1)).mpr same_cells
  exact perm.eq_of_pairwise (fun _ _ _ _ hlt hgt => absurd hlt (Nat.lt_asymm hgt)) hm.1 hm'.1

end Sys2Proof.Machine
end

section
/-! SUPPORT. The invariant at reset and under each update of the state (10_state.md R20, R21, R33, R36). -/

namespace Sys2Proof.Machine

variable {s : State}

theorem inv_writeReg (hs : s.Inv) (rd : RegIdx) (v : Word) : (s.writeReg rd v).Inv where
  memBits_ge := by simpa using hs.memBits_ge
  imem_wf := by simpa using hs.imem_wf
  dmem_wf := by simpa using hs.dmem_wf
  slot_zero := by simpa using hs.slot_zero

theorem inv_setDmem (hs : s.Inv) {m : Memory} (hm : Memory.wf s.memSize m) : (s.setDmem m).Inv :=
  { hs with dmem_wf := hm }

theorem inv_setPc (hs : s.Inv) (p : Word) : (s.setPc p).Inv := { hs with }

/-- Settles O49: an instruction writes one register, stores at most once and sets the pc, and each of the three keeps the
invariant. -/
theorem everyStepKeepsTheInvariant : Obligations.EveryStepKeepsTheInvariant := by
  intro s t hs hstep
  obtain ⟨rd, v, p, m, rfl, hm⟩ := exec_shape hstep
  have dmem_wf : Memory.wf s.memSize m := by
    obtain rfl | ⟨a, n, w, rfl⟩ := hm
    · exact hs.dmem_wf
    · exact memWrite_wf a n hs.dmem_wf w
  exact inv_setPc (inv_setDmem (inv_writeReg hs rd v) (by simpa using dmem_wf)) p

theorem readReg_reset (r : RegIdx) : State.reset.readReg r = 0#32 := by
  have hget : State.reset.x.get r.toFin = 0#32 := Vector.getElem_replicate r.isLt
  rw [State.readReg, hget, ite_self]

theorem inv_reset : State.reset.Inv where
  memBits_ge := by decide
  imem_wf := ⟨.nil, nofun⟩
  dmem_wf := ⟨.nil, nofun⟩
  slot_zero := rfl

/-- Settles O50: both memories list nothing, and the register file repeats one zero word. -/
theorem resetStateIsZeroAndMeetsTheInvariant : Obligations.ResetStateIsZeroAndMeetsTheInvariant :=
  ⟨readReg_reset, rfl, fun _ => rfl, rfl, rfl, inv_reset⟩

end Sys2Proof.Machine
end

section
/-! SUPPORT. What a step does, read off the fetched word: the one case analysis of the decoder that the rules of the whole machine
share (10_state.md R22 to R27, R33; 40_datapath.md R100, R105). -/

namespace Sys2Proof.Machine

/-- The width in bytes that `funct3` gives a store (R87). -/
def StoreWidth (w : Word) (n : Nat) : Prop := funct3Of w = f3SH ∧ n = 2 ∨ funct3Of w = f3SW ∧ n = 4

/-- What the word `w` makes of a state, one constructor per way to do so, with the opcodes that take it. -/
inductive RunsAs (w : Word) : (State → Host.Outcome State Fault Refusal) → Prop where
  /-- The sentinel (R200). -/
  | halt (hw : w = 0#32) : RunsAs w execHalt
  /-- A value that does not depend on data memory goes to `rd` (R164, R173, R174). -/
  | compute (value : State → Word) (hop : opcodeOf w ∈ [opOP, opOPIMM, opLUI])
      (hvalue : ∀ s m, value (s.setDmem m) = value s) : RunsAs w fun s => retire (rdOf w) (value s) s
  /-- A value that may depend on data memory goes to `rd` (R180 to R182). -/
  | load (value : State → Word) (hop : opcodeOf w = opLOAD) : RunsAs w fun s => retire (rdOf w) (value s) s
  /-- The bytes of `x[rs2]` go to data memory (R183, R184). -/
  | store (n : Nat) (hop : opcodeOf w = opSTORE) (hn : StoreWidth w n) :
      RunsAs w fun s => storeData (s.dataAddr (rs1Of w) (immGen w)) n (s.readReg (rs2Of w)) s
  /-- The pc moves by the offset or to the next word (R190). -/
  | branch (hop : opcodeOf w = opBRANCH) : RunsAs w fun s =>
      .next (s.setPc (if s.readReg (rs1Of w) ≠ s.readReg (rs2Of w) then s.pc + immGen w else s.pc + 4#32))
  /-- The link goes to `rd`, and the pc to the register's target (R191). -/
  | jalr (hop : opcodeOf w = opJALR) : RunsAs w fun s =>
      .next ((s.writeReg (rdOf w) (s.pc + 4#32)).setPc (indirectTarget (s.readReg (rs1Of w)) (immGen w)))
  /-- An unlisted function code (R203). -/
  | unsupported (reason : UnsupportedReason) : RunsAs w fun _ => unsupported reason
  /-- A word with none of the seven opcodes (R202). -/
  | unrecognised (hop : recognised (opcodeOf w) = false) : RunsAs w fun s => .next s.advance

variable {w : Word}

theorem immGen_store (h : opcodeOf w = opSTORE) : immGen w = immS (immSOf w) := by
  simp [immGen, h, opOPIMM, opLOAD, opJALR, opSTORE]

theorem immGen_branch (h : opcodeOf w = opBRANCH) : immGen w = immB (immBOf w) := by
  simp [immGen, h, opOPIMM, opLOAD, opJALR, opSTORE, opBRANCH]

theorem immGen_jalr (h : opcodeOf w = opJALR) : immGen w = immI (immIOf w) := by
  simp [immGen, h]

theorem runsAs_decodeOp (h : opcodeOf w = opOP) : RunsAs w (exec (decodeOp w)) := by
  have family (op : AluOp) : RunsAs w (aluRegister op (rdOf w) (rs1Of w) (rs2Of w)) :=
    .compute _ (by simp [h]) fun _ _ => rfl
  unfold decodeOp
  split_ifs
  · exact family .add
  · exact family .sub
  · exact family .sra
  · exact family .and
  · exact .unsupported .opFunct

theorem runsAs_decodeOpimm (h : opcodeOf w = opOPIMM) : RunsAs w (exec (decodeOpimm w)) := by
  have family (op : AluOp) : RunsAs w (aluImmediate op (rdOf w) (rs1Of w) (immIOf w)) :=
    .compute _ (by simp [h]) fun _ _ => rfl
  unfold decodeOpimm
  split_ifs
  · exact family .add
  · exact family .sltu
  · exact family .or
  · exact .unsupported .opimmFunct3

theorem runsAs_decodeLoad (h : opcodeOf w = opLOAD) : RunsAs w (exec (decodeLoad w)) := by
  unfold decodeLoad
  split_ifs
  · exact .load _ h
  · exact .load _ h
  · exact .load _ h
  · exact .unsupported .loadWidth

theorem runsAs_decodeStore (h : opcodeOf w = opSTORE) : RunsAs w (exec (decodeStore w)) := by
  have family (n : Nat) (hn : StoreWidth w n) := RunsAs.store n h hn
  rw [immGen_store h] at family
  unfold decodeStore
  split_ifs with hsh hsw
  · exact family 2 (.inl ⟨hsh, rfl⟩)
  · exact family 4 (.inr ⟨hsw, rfl⟩)
  · exact .unsupported .storeWidth

/-- A branch is one assignment to the pc (R141, R190). -/
theorem execBne_eq (rs1 rs2 : RegIdx) (offset : BitVec 13) (f3 : Funct3) (s : State) :
    execBne rs1 rs2 offset f3 s =
      .next (s.setPc (if s.readReg rs1 ≠ s.readReg rs2 then s.pc + immB offset else s.pc + 4#32)) := by
  by_cases h : s.readReg rs1 = s.readReg rs2
  · simp [execBne, branchTaken, zeroFlag_eq, h, State.advance]
  · simp [execBne, branchTaken, zeroFlag_eq, h]

theorem runsAs_bne (h : opcodeOf w = opBRANCH) :
    RunsAs w (exec (.bne (rs1Of w) (rs2Of w) (immBOf w) (funct3Of w))) := by
  have key := RunsAs.branch h
  simp only [immGen_branch h, ← execBne_eq _ _ (immBOf w) (funct3Of w)] at key
  exact key

theorem runsAs_jalr (h : opcodeOf w = opJALR) : RunsAs w (exec (.jalr (rdOf w) (rs1Of w) (immIOf w) (funct3Of w))) := by
  have key := RunsAs.jalr h
  rw [immGen_jalr h] at key
  exact key

/-- Every word takes one of the ways (R89). -/
theorem runsAs_decodeWord (w : Word) : RunsAs w (exec (decodeWord w)) := by
  obtain hw | h | h | h | h | h | h | h | ⟨hw, h⟩ := word_cases w
  · rw [hw]; exact .halt rfl
  · rw [decodeWord_op h]; exact runsAs_decodeOp h
  · rw [decodeWord_opimm h]; exact runsAs_decodeOpimm h
  · rw [decodeWord_lui h]; exact .compute _ (by simp [h]) fun _ _ => rfl
  · rw [decodeWord_load h]; exact runsAs_decodeLoad h
  · rw [decodeWord_store h]; exact runsAs_decodeStore h
  · rw [decodeWord_branch h]; exact runsAs_bne h
  · rw [decodeWord_jalr h]; exact runsAs_jalr h
  · rw [decodeWord_unrecognised hw h]; exact .unrecognised h

/-- A step runs the fetched word in one of the ways, the same in every state that fetches it. -/
theorem step_runsAs (s : State) : ∃ run, RunsAs s.fetch run ∧ ∀ t : State, t.fetch = s.fetch → step t = run t :=
  ⟨_, runsAs_decodeWord s.fetch, fun t ht => by rw [step, ht]⟩

end Sys2Proof.Machine
end

section
/-! SUPPORT. What a step changes of the registers, the pc and data memory (10_state.md R22, R23, R26, R27, R33). -/

namespace Sys2Proof.Machine

variable {s t u : State} {w : Word} {run : State → Host.Outcome State Fault Refusal}

theorem eq_rd_of_writeReg_changes {rd r : RegIdx} {v : Word} (h : (s.writeReg rd v).readReg r ≠ s.readReg r) :
    r = rd ∧ r ≠ 0#5 := by
  by_contra hr
  exact h (by rw [readReg_writeReg, if_neg hr])

/-- Settles O40: a step that writes a register at all writes the one that `rd` names. -/
theorem stepChangesAtMostTheRdRegister : Obligations.StepChangesAtMostTheRdRegister := by
  intro s t hstep r hr
  obtain ⟨run, hrun, hrun_eq⟩ := step_runsAs s
  rw [hrun_eq s rfl] at hstep
  cases hrun with
  | halt hw => cases hstep; exact absurd rfl hr
  | compute value hop hvalue =>
    cases hstep
    exact and_assoc.mp ⟨eq_rd_of_writeReg_changes hr, List.mem_append_left [opLOAD, opJALR] hop⟩
  | load value hop =>
    cases hstep
    exact and_assoc.mp ⟨eq_rd_of_writeReg_changes hr, by simp [hop]⟩
  | store n hop hn => cases hstep; exact absurd rfl hr
  | branch hop => cases hstep; exact absurd rfl hr
  | jalr hop =>
    cases hstep
    exact and_assoc.mp ⟨eq_rd_of_writeReg_changes hr, by simp [hop]⟩
  | unsupported reason => cases hstep
  | unrecognised hop => cases hstep; exact absurd rfl hr

/-- Settles O41: only the words of BRANCH and JALR end otherwise than by advancing the pc. -/
theorem pcMovesInOneOfThreeWays : Obligations.PcMovesInOneOfThreeWays := by
  intro s t hhalted hstep
  have sequential (hb : opcodeOf s.fetch ≠ opBRANCH) (hj : opcodeOf s.fetch ≠ opJALR) (ht : t.pc = s.pc + 4#32) :
      t.pc = if opcodeOf s.fetch = opBRANCH ∧ s.readReg (rs1Of s.fetch) ≠ s.readReg (rs2Of s.fetch) then
        s.pc + immGen s.fetch
      else if opcodeOf s.fetch = opJALR then (s.readReg (rs1Of s.fetch) + immGen s.fetch) &&& 0xFFFFFFFE#32
      else s.pc + 4#32 := by
    rw [if_neg fun h => hb h.1, if_neg hj, ht]
  obtain ⟨run, hrun, hrun_eq⟩ := step_runsAs s
  rw [hrun_eq s rfl] at hstep
  cases hrun with
  | halt hw => simp [State.halted, hw] at hhalted
  | compute value hop hvalue =>
    cases hstep
    exact sequential (fun h => absurd (h ▸ hop) (by decide)) (fun h => absurd (h ▸ hop) (by decide)) (by simp)
  | load value hop =>
    cases hstep
    exact sequential (by rw [hop]; decide) (by rw [hop]; decide) (by simp)
  | store n hop hn =>
    cases hstep
    exact sequential (by rw [hop]; decide) (by rw [hop]; decide) rfl
  | branch hop =>
    cases hstep
    have hj : opBRANCH ≠ opJALR := by decide
    simp only [setPc_pc, hop, true_and, if_neg hj]
  | jalr hop =>
    cases hstep
    have hb : opcodeOf s.fetch ≠ opBRANCH := by rw [hop]; decide
    rw [if_neg fun h => hb h.1, if_pos hop]
    rfl
  | unsupported reason => cases hstep
  | unrecognised hop =>
    cases hstep
    exact sequential (fun h => absurd (h ▸ hop) (by decide)) (fun h => absurd (h ▸ hop) (by decide)) rfl

theorem toNat_even_iff (v : Word) : v.toNat % 2 = 0 ↔ v.getLsbD 0 = false := by
  simp [BitVec.getLsbD, Nat.testBit_zero]

theorem toNat_even_add {a b : Word} (ha : a.toNat % 2 = 0) (hb : b.toNat % 2 = 0) : (a + b).toNat % 2 = 0 := by
  rw [BitVec.toNat_add]
  omega

theorem immGen_branch_even (h : opcodeOf w = opBRANCH) : (immGen w).toNat % 2 = 0 := by
  rw [immGen_branch h, toNat_even_iff, immB, sext, BitVec.getLsbD_signExtend]
  simpa using immBOf_even w

theorem step_of_halted (h : s.halted = true) : step s = .next s := by
  have hfetch : s.fetch = 0#32 := by simpa [State.halted] using h
  rw [step, hfetch]
  rfl

/-- Each of the three ways leads from an even pc to an even pc. -/
theorem step_keeps_pc_even (hpc : s.pc.toNat % 2 = 0) (hstep : step s = .next t) : t.pc.toNat % 2 = 0 := by
  cases hhalted : s.halted with
  | true =>
    rw [step_of_halted hhalted] at hstep
    cases hstep
    exact hpc
  | false =>
    rw [pcMovesInOneOfThreeWays s t hhalted hstep]
    split_ifs with hbranch hjalr
    · exact toNat_even_add hpc (immGen_branch_even hbranch.1)
    · rw [toNat_even_iff, BitVec.getLsbD_and]
      simp
    · exact toNat_even_add hpc (by decide)

/-- Settles O42, by induction on the steps taken. -/
theorem evenPcStaysEven : Obligations.EvenPcStaysEven := by
  intro s t hpc hreach
  induction hreach with
  | refl => exact hpc
  | step _ hstep ih => exact step_keeps_pc_even ih hstep

/-- A step leaves data memory as it was or, under STORE, does one access (R33, R132). -/
theorem step_dmem (hstep : step s = .next t) : t.dmem = s.dmem ∨
    opcodeOf s.fetch = opSTORE ∧ ∃ n, StoreWidth s.fetch n ∧
      t.dmem = memWrite s.memSize s.dmem (s.dataAddr (rs1Of s.fetch) (immGen s.fetch)) n (s.readReg (rs2Of s.fetch)) := by
  obtain ⟨run, hrun, hrun_eq⟩ := step_runsAs s
  rw [hrun_eq s rfl] at hstep
  cases hrun with
  | halt hw => cases hstep; exact .inl rfl
  | compute value hop hvalue => cases hstep; exact .inl (by simp)
  | load value hop => cases hstep; exact .inl (by simp)
  | store n hop hn => cases hstep; exact .inr ⟨hop, n, hn, rfl⟩
  | branch hop => cases hstep; exact .inl rfl
  | jalr hop => cases hstep; exact .inl (by simp)
  | unsupported reason => cases hstep
  | unrecognised hop => cases hstep; exact .inl rfl

/-- Settles O44: a byte that one access changes lies inside it. -/
theorem onlyStoresChangeDataMemory : Obligations.OnlyStoresChangeDataMemory := by
  intro s t hstep
  obtain hsame | ⟨hop, n, hn, hwrite⟩ := step_dmem hstep
  · exact ⟨fun _ => hsame, fun b hb => absurd (congrArg (Memory.read · b) hsame) hb⟩
  · refine ⟨fun hne => absurd hop hne, fun b hb => ⟨n, hn, ?_⟩⟩
    have hread := read_memWrite (size := s.memSize) s.dmem (s.dataAddr (rs1Of s.fetch) (immGen s.fetch)) b n
      (s.readReg (rs2Of s.fetch))
    rw [← hwrite] at hread
    split_ifs at hread with hin
    · exact ⟨hin.1, hin.2.1, hin.2.2, hread⟩
    · exact absurd hread hb

theorem writeReg_setDmem (s : State) (m : Memory) (rd : RegIdx) (v : Word) :
    (s.setDmem m).writeReg rd v = (s.writeReg rd v).setDmem m := by
  unfold State.writeReg
  split <;> rfl

/-- With other data, a word that is no LOAD ends in the same state but for its data. -/
theorem RunsAs.next_of_setDmem (hrun : RunsAs w run) (hop : opcodeOf w ≠ opLOAD) (hnext : run s = .next u) (m : Memory) :
    ∃ m', run (s.setDmem m) = .next (u.setDmem m') := by
  cases hrun with
  | halt hw => cases hnext; exact ⟨m, rfl⟩
  | compute value _ hvalue =>
    cases hnext
    refine ⟨m, ?_⟩
    simp only [retire_next, hvalue, writeReg_setDmem]
    rfl
  | load value hload => exact absurd hload hop
  | store n _ hn => cases hnext; exact ⟨_, rfl⟩
  | branch _ => cases hnext; exact ⟨m, rfl⟩
  | jalr _ =>
    cases hnext
    refine ⟨m, ?_⟩
    simp only [writeReg_setDmem]
    rfl
  | unsupported reason => cases hnext
  | unrecognised _ => cases hnext; exact ⟨m, rfl⟩

theorem eq_setDmem_of_agree (hbits : s.memBits = t.memBits) (hx : s.x = t.x) (hpc : s.pc = t.pc) (himem : s.imem = t.imem) :
    t = s.setDmem t.dmem := by
  cases s; cases t; cases hbits; cases hx; cases hpc; cases himem; rfl

/-- Settles O46: the second state is the first with other data, which only LOAD looks at. -/
theorem dataMemoryIsSeenOnlyByLoads : Obligations.DataMemoryIsSeenOnlyByLoads := by
  intro s t u hbits hx hpc himem hop hstep
  obtain ⟨run, hrun, hrun_eq⟩ := step_runsAs s
  rw [hrun_eq s rfl] at hstep
  obtain ⟨m', hnext⟩ := hrun.next_of_setDmem hop hstep t.dmem
  rw [eq_setDmem_of_agree hbits hx hpc himem, hrun_eq (s.setDmem t.dmem) rfl]
  exact ⟨_, hnext, rfl, rfl, rfl, rfl⟩

end Sys2Proof.Machine
end

section
/-! SUPPORT. The one data address and the fetch from instruction memory (20_memory.md R41, R44, R45, R57, R59). -/

namespace Sys2Proof.Machine

variable {s t u : State}

/-- The effective address is the wrapped sum, and the mask is the remainder (R44, R185). -/
theorem dataAddr_eq_mod (s : State) (rs1 : RegIdx) (imm : Word) :
    s.dataAddr rs1 imm = (s.readReg rs1 + imm).toNat % s.memSize :=
  memAddr_eq_mod s.memBits (s.readReg rs1 + imm)

/-- A multiple of `MEM_SIZE` is lost in the mask, or, where `MEM_SIZE` is 2^32 or more, in the wrap of the sum. -/
theorem memAddr_add_multiple (n : Nat) (ea : Word) (k : Nat) :
    memAddr (2 ^ n) (ea + BitVec.ofNat 32 (k * 2 ^ n)) = memAddr (2 ^ n) ea := by
  rw [memAddr_eq_mod, memAddr_eq_mod, BitVec.toNat_add, BitVec.toNat_ofNat, Nat.add_mod_mod]
  obtain hn | hn := Nat.le_total n 32
  · rw [Nat.mod_mod_of_dvd _ (pow_dvd_pow 2 hn), Nat.add_mul_mod_self_right]
  · have multiple_wraps : 2 ^ 32 ∣ k * 2 ^ n := (pow_dvd_pow 2 hn).mul_left k
    rw [Nat.add_mod, Nat.mod_eq_zero_of_dvd multiple_wraps, Nat.add_zero, Nat.mod_mod, Nat.mod_eq_of_lt ea.isLt]

/-- Settles O33: every data address is one remainder, which no multiple of the size changes. -/
theorem dataAddressesAliasModuloMemSize : Obligations.DataAddressesAliasModuloMemSize :=
  ⟨fun s rs1 imm => ⟨dataAddr_eq_mod s rs1 imm, dataAddr_lt s rs1 imm⟩, memAddr_add_multiple⟩

theorem fetch_of_fits (h : s.pc.toNat + 3 < s.memSize) :
    s.fetch = s.instrByte (s.pc.toNat + 3) ++ s.instrByte (s.pc.toNat + 2) ++ s.instrByte (s.pc.toNat + 1) ++
      s.instrByte s.pc.toNat := by
  rw [State.fetch, fetchAt, if_pos h, readBytes_four, leWord_four]
  rfl

theorem fetch_of_not_fits (h : s.pc.toNat + 3 ≥ s.memSize) : s.fetch = 0#32 := by
  rw [State.fetch, fetchAt, if_neg (Nat.not_lt.mpr h)]

/-- Settles O18: the two sides of the fetch's one bound. -/
theorem fetchIsFourLittleEndianBytes : Obligations.FetchIsFourLittleEndianBytes :=
  fun _ => ⟨fetch_of_fits, fetch_of_not_fits⟩

theorem fetch_congr (hbits : s.memBits = t.memBits) (himem : s.imem = t.imem) (hpc : s.pc = t.pc) : s.fetch = t.fetch := by
  rw [State.fetch, State.fetch, State.memSize, State.memSize, hbits, himem, hpc]

/-- Nothing an instruction can do reaches instruction memory or its size. -/
theorem step_keeps_imem (hstep : step s = .next t) : t.imem = s.imem ∧ t.memBits = s.memBits := by
  obtain ⟨rd, v, p, m, rfl, -⟩ := exec_shape hstep
  exact ⟨by simp, by simp⟩

/-- Settles O43: the first part by induction on the steps taken, the second by what a fetch reads. -/
theorem instructionMemoryNeverChanges : Obligations.InstructionMemoryNeverChanges := by
  refine ⟨fun s t hreach => ?_, fun s t => fetch_congr⟩
  induction hreach with
  | refl => exact ⟨rfl, rfl⟩
  | step _ hstep ih =>
    obtain ⟨himem, hbits⟩ := step_keeps_imem hstep
    exact ⟨himem.trans ih.1, hbits.trans ih.2⟩

/-- The state with another instruction memory. -/
def State.setImem (s : State) (m : Memory) : State := { s with imem := m }

theorem writeReg_setImem (s : State) (m : Memory) (rd : RegIdx) (v : Word) :
    (s.setImem m).writeReg rd v = (s.writeReg rd v).setImem m := by
  unfold State.writeReg
  split <;> rfl

theorem retire_setImem {rd : RegIdx} {v : Word} (m : Memory) (h : retire rd v s = .next u) :
    retire rd v (s.setImem m) = .next (u.setImem m) := by
  cases h
  rw [retire_next, writeReg_setImem]
  rfl

/-- An instruction, once fetched, does not look at instruction memory. -/
theorem exec_setImem {i : Instr} (m : Memory) (h : exec i s = .next u) : exec i (s.setImem m) = .next (u.setImem m) := by
  cases i with
  | add _ _ _ | sub _ _ _ | sra _ _ _ | and _ _ _ => exact retire_setImem m h
  | addi _ _ _ | sltiu _ _ _ | ori _ _ _ | lui _ _ => exact retire_setImem m h
  | lb _ _ _ | lw _ _ _ | lbu _ _ _ => exact retire_setImem m h
  | sh _ _ _ | sw _ _ _ => cases h; rfl
  | bne rs1 rs2 offset f3 =>
    rw [exec, execBne_eq] at h ⊢
    cases h
    rfl
  | jalr rd rs1 imm f3 =>
    cases h
    rw [exec, execJalr, writeReg_setImem]
    rfl
  | halt | unrecognised _ _ => cases h; rfl
  | unsupportedOp _ _ _ _ _ | unsupportedOpimm _ _ _ _ | unsupportedLoad _ _ _ _ | unsupportedStore _ _ _ _ => cases h

theorem AgreeOffInstructions.eq_setImem (h : AgreeOffInstructions s t) : t = s.setImem t.imem := by
  obtain ⟨hbits, hx, hpc, hdmem⟩ := h
  cases s; cases t; cases hbits; cases hx; cases hpc; cases hdmem; rfl

/-- Settles O45: the second state is the first with another instruction memory, and both run the same instruction. -/
theorem instructionMemoryIsSeenOnlyByTheFetch : Obligations.InstructionMemoryIsSeenOnlyByTheFetch := by
  intro s t u hagree hfetch hstep
  refine ⟨u.setImem t.imem, ?_, ⟨rfl, rfl, rfl, rfl⟩, rfl⟩
  calc step t = exec (decodeWord s.fetch) t := by rw [step, hfetch]
    _ = exec (decodeWord s.fetch) (s.setImem t.imem) := by rw [← hagree.eq_setImem]
    _ = .next (u.setImem t.imem) := exec_setImem t.imem hstep

end Sys2Proof.Machine
end

section
/-! SUPPORT. What a load finds where a store has been (20_memory.md R40 to R42, R54; 43_load_store.md R180 to R184). -/

namespace Sys2Proof.Machine

/-- The state after a store of the low `n` bytes of `w` at `a`. -/
def State.stored (s : State) (a n : Nat) (w : Word) : State :=
  (s.setDmem (memWrite s.memSize s.dmem a n w)).advance

variable {s : State} {a b k n : Nat} {w : Word} (rs2 rs1 rd r : RegIdx) (imm : BitVec 12) (v : Word)

theorem exec_sw : exec (.sw rs2 rs1 imm) s = .next (s.stored (s.dataAddr rs1 (immS imm)) 4 (s.readReg rs2)) := rfl

theorem exec_sh : exec (.sh rs2 rs1 imm) s = .next (s.stored (s.dataAddr rs1 (immS imm)) 2 (s.readReg rs2)) := rfl

theorem exec_lw : exec (.lw rd rs1 imm) s = .next (s.writeReg rd (s.loadData (s.dataAddr rs1 (immI imm)) 4)).advance := rfl

/-- A byte load always finds its byte, since the mask puts the address inside (R44, R46). -/
theorem loadData_one_setWidth (s : State) (rs1 : RegIdx) (v : Word) :
    (s.loadData (s.dataAddr rs1 v) 1).setWidth 8 = s.dataByte (s.dataAddr rs1 v) := by
  rw [loadData_one s (dataAddr_lt s rs1 v), BitVec.setWidth_setWidth_of_le _ (by decide), BitVec.setWidth_eq]

theorem exec_lb : exec (.lb rd rs1 imm) s =
    .next (s.writeReg rd (BitVec.ofInt 32 (s.dataByte (s.dataAddr rs1 (immI imm))).toInt)).advance := by
  rw [← loadData_one_setWidth]
  rfl

theorem exec_lbu : exec (.lbu rd rs1 imm) s =
    .next (s.writeReg rd (BitVec.ofNat 32 (s.dataByte (s.dataAddr rs1 (immI imm))).toNat)).advance := by
  rw [← loadData_one_setWidth, BitVec.ofNat_toNat]
  rfl

/-- What a register-writing instruction leaves in its own destination (R22). -/
theorem readReg_retired : (s.writeReg rd v).advance.readReg rd = if rd = 0#5 then 0#32 else v := by
  rw [readReg_advance, readReg_writeReg]
  by_cases h : rd = 0#5
  · subst h; rfl
  · rw [if_pos ⟨rfl, h⟩, if_neg h]

@[simp] theorem stored_memSize : (s.stored a n w).memSize = s.memSize := rfl

@[simp] theorem stored_dataAddr : (s.stored a n w).dataAddr r v = s.dataAddr r v := rfl

theorem stored_dataByte_inside (hfit : a + n ≤ s.memSize) (hk : k < n) :
    (s.stored a n w).dataByte (a + k) = w.extractLsb' (8 * k) 8 := by
  rw [State.stored, storeData_dataByte, if_pos ⟨hfit, by omega, by omega⟩, Nat.add_sub_cancel_left]

theorem stored_dataByte_below (hb : b < a) : (s.stored a n w).dataByte b = s.dataByte b := by
  rw [State.stored, storeData_dataByte, if_neg (by omega)]

theorem stored_sameData_of_dropped (h : a + n > s.memSize) : SameData s (s.stored a n w) := fun b => by
  rw [State.stored, storeData_dataByte, if_neg (by omega)]

/-- A word is its four bytes (R40). -/
theorem word_eq_bytes (w : Word) :
    w.extractLsb' (8 * 3) 8 ++ w.extractLsb' (8 * 2) 8 ++ w.extractLsb' (8 * 1) 8 ++ w.extractLsb' (8 * 0) 8 = w := by
  rw [BitVec.extractLsb'_append_extractLsb'_eq_extractLsb' (by decide),
    BitVec.extractLsb'_append_extractLsb'_eq_extractLsb' (by decide),
    BitVec.extractLsb'_append_extractLsb'_eq_extractLsb' (by decide), BitVec.extractLsb'_eq_self]

/-- A word load from where a word store has been (R54). -/
theorem stored_loadData_word : (s.stored a 4 w).loadData a 4 = if a + 4 ≤ s.memSize then w else 0#32 := by
  rw [loadData_four, stored_memSize]
  by_cases hfit : a + 4 ≤ s.memSize
  · have byte (k : Nat) (hk : k < 4) := stored_dataByte_inside (w := w) hfit hk
    have byte_zero := byte 0 (by decide)
    rw [Nat.add_zero] at byte_zero
    rw [if_pos hfit, if_pos hfit, byte 3 (by decide), byte 2 (by decide), byte 1 (by decide), byte_zero, word_eq_bytes]
  · rw [if_neg hfit, if_neg hfit]

/-- A word load from two bytes below a stored half-word (R42). -/
theorem stored_loadData_over_half (hfit : a + 4 ≤ s.memSize) : (s.stored (a + 2) 2 w).loadData a 4 =
    w.extractLsb' 8 8 ++ w.extractLsb' 0 8 ++ s.dataByte (a + 1) ++ s.dataByte a := by
  have high : (s.stored (a + 2) 2 w).dataByte (a + 3) = w.extractLsb' 8 8 := stored_dataByte_inside hfit (k := 1) (by decide)
  have low : (s.stored (a + 2) 2 w).dataByte (a + 2) = w.extractLsb' 0 8 := stored_dataByte_inside hfit (k := 0) (by decide)
  rw [loadData_four, stored_memSize, if_pos hfit, high, low, stored_dataByte_below (by omega), stored_dataByte_below (by omega)]

/-- Settles O47: the load finds the stored word, or 0 where the store was dropped. -/
theorem storeWordThenLoadWordGivesTheWord : Obligations.StoreWordThenLoadWordGivesTheWord := by
  intro rs2 rs1 rb rd imm immb s haddr
  refine ⟨_, _, exec_sw rs2 rs1 imm, exec_lw rb rd immb, stored_sameData_of_dropped, ?_⟩
  rw [readReg_retired, stored_dataAddr, haddr, stored_loadData_word]

/-- Settles O48: the loads find the stored bytes where the store has been and the old ones below it. -/
theorem mixedWidthAccessesSeeTheBytes : Obligations.MixedWidthAccessesSeeTheBytes := by
  refine ⟨fun rs2 rs1 rb rd imm immb s k hk hfit haddr => ?_, fun rs2 rs1 rb rd imm immb s hfit haddr => ?_⟩
  · refine ⟨_, _, _, exec_sw rs2 rs1 imm, exec_lbu rb rd immb, exec_lb rb rd immb, ?_, ?_⟩ <;>
      rw [readReg_retired, stored_dataAddr, haddr, stored_dataByte_inside hfit hk]
  · refine ⟨_, _, exec_sh rs2 rs1 imm, exec_lw rb rd immb, ?_⟩
    rw [readReg_retired, stored_dataAddr, haddr, stored_loadData_over_half hfit]

end Sys2Proof.Machine
end

section
/-! SUPPORT. The two round trips between instructions and their words (30_encoding.md sections 1 and 3). -/

namespace Sys2Proof.Machine

open Sys2Proof.Laws

/-- The per-instruction round trips, put together. -/
theorem decodeWord_encode (i : Instr) (hi : i.wf = true) : decodeWord (encode i) = i := by
  suffices RoundTrip.Statement i from this hi
  cases i with
  | add rd rs1 rs2 => exact RoundTrip.add rd rs1 rs2
  | sub rd rs1 rs2 => exact RoundTrip.sub rd rs1 rs2
  | sra rd rs1 rs2 => exact RoundTrip.sra rd rs1 rs2
  | and rd rs1 rs2 => exact RoundTrip.and rd rs1 rs2
  | addi rd rs1 imm => exact RoundTrip.addi rd rs1 imm
  | sltiu rd rs1 imm => exact RoundTrip.sltiu rd rs1 imm
  | ori rd rs1 imm => exact RoundTrip.ori rd rs1 imm
  | lui rd imm20 => exact RoundTrip.lui rd imm20
  | lb rd rs1 imm => exact RoundTrip.lb rd rs1 imm
  | lw rd rs1 imm => exact RoundTrip.lw rd rs1 imm
  | lbu rd rs1 imm => exact RoundTrip.lbu rd rs1 imm
  | sh rs2 rs1 imm => exact RoundTrip.sh rs2 rs1 imm
  | sw rs2 rs1 imm => exact RoundTrip.sw rs2 rs1 imm
  | bne rs1 rs2 offset f3 => exact RoundTrip.bne rs1 rs2 offset f3
  | jalr rd rs1 imm f3 => exact RoundTrip.jalr rd rs1 imm f3
  | halt => exact RoundTrip.halt
  | unsupportedOp f7 f3 rd rs1 rs2 => exact RoundTrip.unsupportedOp f7 f3 rd rs1 rs2
  | unsupportedOpimm f3 rd rs1 imm => exact RoundTrip.unsupportedOpimm f3 rd rs1 imm
  | unsupportedLoad f3 rd rs1 imm => exact RoundTrip.unsupportedLoad f3 rd rs1 imm
  | unsupportedStore f3 rs2 rs1 imm => exact RoundTrip.unsupportedStore f3 rs2 rs1 imm
  | unrecognised op rest => exact RoundTrip.unrecognised op rest

/-- The stream decoder takes the four bytes of a word and leaves the rest. -/
theorem decode_leBytes_append (w : Word) (rest : List Byte) : decode (leBytes 4 w ++ rest) = .ok (decodeWord w, rest) := by
  show Except.ok (decodeWord (leWord (leBytes 4 w)), rest) = _
  rw [leWord_leBytes]

/-- Settles O1: the stream decoder reads the instruction's own word, and each instruction's word decodes to it. -/
theorem decodeOfEncodeIsTheInstruction : Obligations.DecodeOfEncodeIsTheInstruction := by
  intro i rest hi
  have hword := decodeWord_encode i hi
  exact ⟨hword, by rw [encodeBytes, decode_leBytes_append, hword]⟩

/-- `i` is an instruction, and its word is `w`. -/
def IsWordOf (w : Word) (i : Instr) : Prop := i.wf = true ∧ encode i = w

variable {w : Word} {op : Opcode} {f7 : Funct7} {f3 : Funct3}

theorem packR_eq_of_fields (hop : opcodeOf w = op) (h : funct7Of w = f7 ∧ funct3Of w = f3) :
    packR f7 (rs2Of w) (rs1Of w) f3 (rdOf w) op = w := by
  obtain ⟨rfl, rfl⟩ := h
  rw [← hop, packR_fields]

theorem packI_eq_of_fields (hop : opcodeOf w = op) (h : funct3Of w = f3) : packI (immIOf w) (rs1Of w) f3 (rdOf w) op = w := by
  rw [← hop, ← h, packI_fields]

theorem packS_eq_of_fields (hop : opcodeOf w = op) (h : funct3Of w = f3) : packS (immSOf w) (rs2Of w) (rs1Of w) f3 op = w := by
  rw [← hop, ← h, packS_fields]

theorem listedOp_eq_false_iff : listedOp f7 f3 = false ↔
    ¬ (f7 = f7ADD ∧ f3 = f3ADD) ∧ ¬ (f7 = f7SUB ∧ f3 = f3SUB) ∧ ¬ (f7 = f7SRA ∧ f3 = f3SRA) ∧
      ¬ (f7 = f7AND ∧ f3 = f3AND) := by
  simp [listedOp, and_assoc]

theorem decodeOp_isWordOf (hop : opcodeOf w = opOP) : IsWordOf w (decodeOp w) := by
  unfold decodeOp
  split_ifs with hadd hsub hsra hand
  · exact ⟨rfl, packR_eq_of_fields hop hadd⟩
  · exact ⟨rfl, packR_eq_of_fields hop hsub⟩
  · exact ⟨rfl, packR_eq_of_fields hop hsra⟩
  · exact ⟨rfl, packR_eq_of_fields hop hand⟩
  · exact ⟨by rw [Instr.wf, listedOp_eq_false_iff.mpr ⟨hadd, hsub, hsra, hand⟩, Bool.not_false], packR_eq_of_fields hop ⟨rfl, rfl⟩⟩

theorem decodeOpimm_isWordOf (hop : opcodeOf w = opOPIMM) : IsWordOf w (decodeOpimm w) := by
  unfold decodeOpimm
  split_ifs with haddi hsltiu hori
  · exact ⟨rfl, packI_eq_of_fields hop haddi⟩
  · exact ⟨rfl, packI_eq_of_fields hop hsltiu⟩
  · exact ⟨rfl, packI_eq_of_fields hop hori⟩
  · exact ⟨by simp [Instr.wf, listedOpimm, haddi, hsltiu, hori], packI_eq_of_fields hop rfl⟩

theorem decodeLoad_isWordOf (hop : opcodeOf w = opLOAD) : IsWordOf w (decodeLoad w) := by
  unfold decodeLoad
  split_ifs with hlb hlw hlbu
  · exact ⟨rfl, packI_eq_of_fields hop hlb⟩
  · exact ⟨rfl, packI_eq_of_fields hop hlw⟩
  · exact ⟨rfl, packI_eq_of_fields hop hlbu⟩
  · exact ⟨by simp [Instr.wf, listedLoad, hlb, hlw, hlbu], packI_eq_of_fields hop rfl⟩

theorem decodeStore_isWordOf (hop : opcodeOf w = opSTORE) : IsWordOf w (decodeStore w) := by
  unfold decodeStore
  split_ifs with hsh hsw
  · exact ⟨rfl, packS_eq_of_fields hop hsh⟩
  · exact ⟨rfl, packS_eq_of_fields hop hsw⟩
  · exact ⟨by simp [Instr.wf, listedStore, hsh, hsw], packS_eq_of_fields hop rfl⟩

theorem unrecognised_isWordOf (hw : w ≠ 0#32) (hop : recognised (opcodeOf w) = false) :
    IsWordOf w (.unrecognised (opcodeOf w) (w.extractLsb' 7 25)) := by
  have hword : (w.extractLsb' 7 25 ++ opcodeOf w : Word) = w := packRest_fields w
  refine ⟨?_, hword⟩
  have not_sentinel : ¬ (opcodeOf w = 0#7 ∧ w.extractLsb' 7 25 = 0#25) := fun ⟨hlow, hhigh⟩ =>
    hw (by rw [← hword, hlow, hhigh]; rfl)
  simpa [Instr.wf, hop, imp_iff_not_or] using not_sentinel

theorem decodeWord_isWordOf (w : Word) : IsWordOf w (decodeWord w) := by
  obtain hw | h | h | h | h | h | h | h | ⟨hw, h⟩ := word_cases w
  · subst hw; exact ⟨rfl, rfl⟩
  · rw [decodeWord_op h]; exact decodeOp_isWordOf h
  · rw [decodeWord_opimm h]; exact decodeOpimm_isWordOf h
  · rw [decodeWord_lui h]; exact ⟨rfl, by rw [encode, ← h, packU_fields]⟩
  · rw [decodeWord_load h]; exact decodeLoad_isWordOf h
  · rw [decodeWord_store h]; exact decodeStore_isWordOf h
  · rw [decodeWord_branch h]; exact ⟨by rw [Instr.wf, immBOf_even, Bool.not_false], by rw [encode, ← h, packB_fields]⟩
  · rw [decodeWord_jalr h]; exact ⟨rfl, packI_eq_of_fields h rfl⟩
  · rw [decodeWord_unrecognised hw h]; exact unrecognised_isWordOf hw h

/-- Settles O2, by the decoder's cases: the fields that each case keeps are all of the word. -/
theorem encodeOfDecodeIsTheWord : Obligations.EncodeOfDecodeIsTheWord := decodeWord_isWordOf

end Sys2Proof.Machine
end

section
/-! SUPPORT. The row of the opcode table that a word selects (30_encoding.md R89; spec/opcode_table.json). -/

namespace Sys2Proof.Machine

variable {w : Word} {op : Opcode} {f7 : Funct7} {f3 : Funct3} {m : String} {r r' : TableRow}

theorem hits_iff : r.hits w = true ↔ w &&& r.mask = r.pattern := beq_iff_eq

theorem selected_iff : r.selected w = true ↔
    r.hits w = true ∧ ∀ r' ∈ opcodeTable, r'.hits w = true → r.priority ≤ r'.priority := by
  simp [TableRow.selected, imp_iff_not_or]

/-- Two rows that one word matches ask the same of the bits that both look at. -/
theorem patterns_agree_of_hits (hit : r.hits w = true) (hit' : r'.hits w = true) :
    r.pattern &&& r'.mask = r'.pattern &&& r.mask := by
  rw [← hits_iff.mp hit, ← hits_iff.mp hit', BitVec.and_assoc, BitVec.and_assoc, BitVec.and_comm r.mask]

/-- No word matches two rows of one priority. -/
theorem opcodeTable_no_ties : ∀ r ∈ opcodeTable, ∀ r' ∈ opcodeTable,
    r.pattern &&& r'.mask = r'.pattern &&& r.mask → r.priority = r'.priority → r = r' := by
  decide

/-- No word matches both the sentinel's row and an instruction's. -/
theorem opcodeTable_listed_first : ∀ r ∈ opcodeTable, ∀ r' ∈ opcodeTable,
    r.pattern &&& r'.mask = r'.pattern &&& r.mask → r.priority ≤ 1 → r.priority ≤ r'.priority := by
  decide

theorem opcodeTable_mnemonics_distinct : ∀ r ∈ opcodeTable, ∀ r' ∈ opcodeTable, r.mnemonic = r'.mnemonic → r = r' := by
  decide

theorem eq_of_selected (hr : r ∈ opcodeTable) (hr' : r' ∈ opcodeTable) (h : r.selected w = true) (h' : r'.selected w = true) :
    r = r' := by
  obtain ⟨hit, first⟩ := selected_iff.mp h
  obtain ⟨hit', first'⟩ := selected_iff.mp h'
  have same_priority := Nat.le_antisymm (first r' hr' hit') (first' r hr hit)
  exact opcodeTable_no_ties r hr r' hr' (patterns_agree_of_hits hit hit') same_priority

/-- The word selects a row of the table with mnemonic `m`. -/
def Selects (w : Word) (m : String) : Prop := ∃ r ∈ opcodeTable, r.mnemonic = m ∧ r.selected w = true

theorem selects_of_hits (hr : r ∈ opcodeTable) (hit : r.hits w = true)
    (first : ∀ r' ∈ opcodeTable, r'.hits w = true → r.priority ≤ r'.priority) : Selects w r.mnemonic :=
  ⟨r, hr, rfl, selected_iff.mpr ⟨hit, first⟩⟩

theorem selects_of_hits_listed (hr : r ∈ opcodeTable) (hp : r.priority ≤ 1) (hit : r.hits w = true) : Selects w r.mnemonic :=
  selects_of_hits hr hit fun r' hr' hit' => opcodeTable_listed_first r hr r' hr' (patterns_agree_of_hits hit hit') hp

/-- A row that looks at the opcode alone. -/
def opcodeRow (m : String) (op : Opcode) (priority : Nat) : TableRow := ⟨m, op.setWidth 32, 0x7F#32, priority⟩

/-- An instruction's row that looks at the opcode and `funct3`. -/
def funct3Row (m : String) (op : Opcode) (f3 : Funct3) : TableRow :=
  ⟨m, op.setWidth 32 ||| (f3.setWidth 32 <<< 12), 0x707F#32, 1⟩

/-- An instruction's row that looks at the opcode and both function codes. -/
def funct7Row (m : String) (op : Opcode) (f3 : Funct3) (f7 : Funct7) : TableRow :=
  ⟨m, op.setWidth 32 ||| (f3.setWidth 32 <<< 12) ||| (f7.setWidth 32 <<< 25), 0xFE00707F#32, 1⟩

variable (m)

theorem selects_opcode (hr : opcodeRow m op 1 ∈ opcodeTable) (hop : opcodeOf w = op) : Selects w m :=
  selects_of_hits_listed hr le_rfl (by rw [opcodeRow, hits_opcode, hop, BEq.rfl])

theorem selects_funct3 (hr : funct3Row m op f3 ∈ opcodeTable) (hop : opcodeOf w = op) (h3 : funct3Of w = f3) : Selects w m :=
  selects_of_hits_listed hr le_rfl (by rw [funct3Row, hits_funct3, hop, h3, BEq.rfl, BEq.rfl, Bool.and_self])

theorem selects_packI {rd rs1 : RegIdx} {imm : BitVec 12} (hr : funct3Row m op f3 ∈ opcodeTable) :
    Selects (packI imm rs1 f3 rd op) m :=
  selects_funct3 m hr (packI_opcode ..) (packI_funct3 ..)

theorem selects_packS {rs2 rs1 : RegIdx} {imm : BitVec 12} (hr : funct3Row m op f3 ∈ opcodeTable) :
    Selects (packS imm rs2 rs1 f3 op) m :=
  selects_funct3 m hr (packS_opcode ..) (packS_funct3 ..)

theorem selects_packR {rd rs1 rs2 : RegIdx} (hr : funct7Row m op f3 f7 ∈ opcodeTable) :
    Selects (packR f7 rs2 rs1 f3 rd op) m :=
  selects_of_hits_listed hr le_rfl (by simp [funct7Row, hits_funct7])

/-- Every row of priority 0 or 1 that a word of opcode `op` may match looks at the bits of `fields`, and asks for listed codes. -/
abbrev RowsAreListed (op : Opcode) (fields : Word) (listed : Word → Bool) : Prop :=
  ∀ r ∈ opcodeTable, op &&& opcodeOf r.mask = opcodeOf r.pattern → 2 ≤ r.priority ∨ r.mask = fields ∧ listed r.pattern = true

theorem opcodeOf_of_hits (hit : r.hits w = true) : opcodeOf w &&& opcodeOf r.mask = opcodeOf r.pattern := by
  rw [← hits_iff.mp hit]
  exact BitVec.extractLsb'_and.symm

/-- A word whose codes are not listed matches no row before its opcode's catch-all. -/
theorem selects_unlisted {fields : Word} {listed : Word → Bool} (rows : RowsAreListed op fields listed)
    (hr : opcodeRow m op 2 ∈ opcodeTable) (hop : opcodeOf w = op) (hun : listed (w &&& fields) = false) : Selects w m := by
  refine selects_of_hits hr (by rw [opcodeRow, hits_opcode, hop, BEq.rfl]) fun r' hr' hit' => ?_
  obtain hp | ⟨rfl, hlisted⟩ := rows r' hr' (hop ▸ opcodeOf_of_hits hit')
  · exact hp
  · rw [hits_iff.mp hit', hlisted] at hun
    cases hun

theorem funct3Of_and {v : Word} (hv : funct3Of v = BitVec.allOnes 3) : funct3Of (w &&& v) = funct3Of w := by
  rw [funct3Of, BitVec.extractLsb'_and, ← funct3Of, ← funct3Of, hv, BitVec.and_allOnes]

theorem funct7Of_and {v : Word} (hv : funct7Of v = BitVec.allOnes 7) : funct7Of (w &&& v) = funct7Of w := by
  rw [funct7Of, BitVec.extractLsb'_and, ← funct7Of, ← funct7Of, hv, BitVec.and_allOnes]

theorem selects_unlistedFunct3 (listed : Funct3 → Bool) (rows : RowsAreListed op 0x707F#32 fun v => listed (funct3Of v))
    (hr : opcodeRow m op 2 ∈ opcodeTable) (hop : opcodeOf w = op) (h3 : funct3Of w = f3) (hun : (!listed f3) = true) :
    Selects w m :=
  selects_unlisted m rows hr hop (by
    simpa only [funct3Of_and (v := 0x707F#32) rfl, h3, Bool.not_eq_true'] using hun)

theorem selects_unlistedOp (hop : opcodeOf w = opOP) (h7 : funct7Of w = f7) (h3 : funct3Of w = f3)
    (hun : (!listedOp f7 f3) = true) : Selects w "UNSUPPORTED_OP" := by
  have rows : RowsAreListed opOP 0xFE00707F#32 fun v => listedOp (funct7Of v) (funct3Of v) := by decide
  refine selects_unlisted _ rows (by decide) hop ?_
  simpa only [funct7Of_and (v := 0xFE00707F#32) rfl, funct3Of_and (v := 0xFE00707F#32) rfl, h7, h3, Bool.not_eq_true'] using hun

/-- Every row but the last is the sentinel's or asks for a recognised opcode. -/
theorem opcodeTable_recognised : ∀ r ∈ opcodeTable, 3 ≤ r.priority ∨ r.mask = BitVec.allOnes 32 ∧ r.pattern = 0#32 ∨
    opcodeOf r.mask = BitVec.allOnes 7 ∧ recognised (opcodeOf r.pattern) = true := by
  decide

theorem selects_unrecognised (hw : w ≠ 0#32) (hop : recognised (opcodeOf w) = false) : Selects w "UNRECOGNISED" := by
  refine selects_of_hits (r := ⟨"UNRECOGNISED", 0, 0, 3⟩) (by decide) (hits_iff.mpr BitVec.and_zero) fun r' hr' hit' => ?_
  obtain hp | ⟨hmask, hpattern⟩ | ⟨hmask, hrec⟩ := opcodeTable_recognised r' hr'
  · exact hp
  · have hit_whole := hits_iff.mp hit'
    rw [hmask, hpattern, BitVec.and_allOnes] at hit_whole
    exact absurd hit_whole hw
  · have same_opcode := opcodeOf_of_hits hit'
    rw [hmask, BitVec.and_allOnes] at same_opcode
    rw [same_opcode, hrec] at hop
    cases hop

theorem encode_ne_zero {i : Instr} (hi : i.wf = true) (hne : i ≠ .halt) : encode i ≠ 0#32 := fun hzero =>
  hne (by rw [← decodeWord_encode i hi, hzero]; rfl)

theorem selects_encode (i : Instr) (hi : i.wf = true) : Selects (encode i) i.mnemonic := by
  cases i with
  | add rd rs1 rs2 => exact selects_packR "ADD" (by decide)
  | sub rd rs1 rs2 => exact selects_packR "SUB" (by decide)
  | sra rd rs1 rs2 => exact selects_packR "SRA" (by decide)
  | and rd rs1 rs2 => exact selects_packR "AND" (by decide)
  | addi rd rs1 imm => exact selects_packI "ADDI" (by decide)
  | sltiu rd rs1 imm => exact selects_packI "SLTIU" (by decide)
  | ori rd rs1 imm => exact selects_packI "ORI" (by decide)
  | lui rd imm20 => exact selects_opcode "LUI" (by decide) (packU_opcode ..)
  | lb rd rs1 imm => exact selects_packI "LB" (by decide)
  | lw rd rs1 imm => exact selects_packI "LW" (by decide)
  | lbu rd rs1 imm => exact selects_packI "LBU" (by decide)
  | sh rs2 rs1 imm => exact selects_packS "SH" (by decide)
  | sw rs2 rs1 imm => exact selects_packS "SW" (by decide)
  | bne rs1 rs2 offset f3 => exact selects_opcode "BNE" (by decide) (packB_opcode ..)
  | jalr rd rs1 imm f3 => exact selects_opcode "JALR" (by decide) (packI_opcode ..)
  | halt => exact selects_of_hits_listed (r := ⟨"HALT", 0, 0xFFFFFFFF, 0⟩) (by decide) (by decide) rfl
  | unsupportedOp f7 f3 rd rs1 rs2 => exact selects_unlistedOp (packR_opcode ..) (packR_funct7 ..) (packR_funct3 ..) hi
  | unsupportedOpimm f3 rd rs1 imm =>
    exact selects_unlistedFunct3 "UNSUPPORTED_OPIMM" listedOpimm (by decide) (by decide) (packI_opcode ..) (packI_funct3 ..) hi
  | unsupportedLoad f3 rd rs1 imm =>
    exact selects_unlistedFunct3 "UNSUPPORTED_LOAD" listedLoad (by decide) (by decide) (packI_opcode ..) (packI_funct3 ..) hi
  | unsupportedStore f3 rs2 rs1 imm =>
    exact selects_unlistedFunct3 "UNSUPPORTED_STORE" listedStore (by decide) (by decide) (packS_opcode ..) (packS_funct3 ..) hi
  | unrecognised op rest =>
    obtain ⟨hop, -⟩ := Bool.and_eq_true_iff.mp hi
    refine selects_unrecognised (encode_ne_zero hi nofun) ?_
    rwa [encode, packRest_opcode, ← Bool.not_eq_true']

theorem selects_decodeWord (w : Word) : Selects w (decodeWord w).mnemonic := by
  obtain ⟨hwf, hword⟩ := decodeWord_isWordOf w
  simpa only [hword] using selects_encode (decodeWord w) hwf

/-- Settles O3: the word selects the decoded instruction's row, and no word selects two. -/
theorem decodingFollowsTheOpcodeTable : Obligations.DecodingFollowsTheOpcodeTable := by
  intro w r hr
  obtain ⟨r₀, hr₀, hname, hselected⟩ := selects_decodeWord w
  constructor
  · intro h
    rw [eq_of_selected hr hr₀ h hselected, hname]
  · intro h
    rwa [opcodeTable_mnemonics_distinct r hr r₀ hr₀ (h.trans hname.symm)]

end Sys2Proof.Machine
end

section
/-! SUPPORT. The rules' own bit layouts, the fields and the immediates of a word, bit by bit (30_encoding.md R71 to R83). -/

namespace Sys2Proof.Machine

open Sys2Proof.Laws

theorem packS_append (hi : BitVec 7) (lo : BitVec 5) (rs2 rs1 : RegIdx) (f3 : Funct3) (op : Opcode) :
    packS (hi ++ lo) rs2 rs1 f3 op = hi ++ rs2 ++ rs1 ++ f3 ++ lo ++ op := by
  rw [packS, BitVec.extractLsb'_append_eq_left, BitVec.extractLsb'_append_eq_right]

theorem packB_append (b12 b11 : BitVec 1) (b10_5 : BitVec 6) (b4_1 : BitVec 4) (rs2 rs1 : RegIdx) (f3 : Funct3) (op : Opcode) :
    packB (b12 ++ b11 ++ b10_5 ++ b4_1 ++ 0#1) rs2 rs1 f3 op =
      b12 ++ b10_5 ++ rs2 ++ rs1 ++ f3 ++ b4_1 ++ b11 ++ op := by
  apply BitVec.eq_of_getLsbD_eq; intro i hi
  simp only [packB, BitVec.getLsbD_append, BitVec.getLsbD_extractLsb']
  interval_cases i <;> simp

/-- Settles O4: each layout is the word of its instruction, which decodes to it. -/
theorem instructionLayoutsDecode : Obligations.InstructionLayoutsDecode := by
  refine ⟨fun rd rs1 rs2 => ⟨?_, ?_, ?_, ?_⟩, fun rd rs1 imm => ⟨?_, ?_, ?_, ?_, ?_, ?_, fun f3 => ?_⟩, fun rd imm20 => ?_,
    fun rs2 rs1 hi lo => ⟨?_, ?_⟩, fun rs2 rs1 f3 b12 b11 b10_5 b4_1 => ?_, rfl⟩
  · exact RoundTrip.add rd rs1 rs2 rfl
  · exact RoundTrip.sub rd rs1 rs2 rfl
  · exact RoundTrip.sra rd rs1 rs2 rfl
  · exact RoundTrip.and rd rs1 rs2 rfl
  · exact RoundTrip.addi rd rs1 imm rfl
  · exact RoundTrip.ori rd rs1 imm rfl
  · exact RoundTrip.sltiu rd rs1 imm rfl
  · exact RoundTrip.lw rd rs1 imm rfl
  · exact RoundTrip.lb rd rs1 imm rfl
  · exact RoundTrip.lbu rd rs1 imm rfl
  · exact RoundTrip.jalr rd rs1 imm f3 rfl
  · exact RoundTrip.lui rd imm20 rfl
  · rw [← packS_append]
    exact RoundTrip.sw rs2 rs1 (hi ++ lo) rfl
  · rw [← packS_append]
    exact RoundTrip.sh rs2 rs1 (hi ++ lo) rfl
  · have even : (b12 ++ b11 ++ b10_5 ++ b4_1 ++ 0#1).getLsbD 0 = false := by
      rw [BitVec.getLsbD_append]
      rfl
    rw [← packB_append]
    exact RoundTrip.bne rs1 rs2 _ f3 (by rw [Instr.wf, even, Bool.not_false])

variable {w : Word} {n k : Nat}

theorem getLsbD_field (w : Word) (start len : Nat) (hk : k < len) :
    (w.extractLsb' start len).getLsbD k = w.getLsbD (start + k) := by
  rw [BitVec.getLsbD_extractLsb', decide_eq_true hk, Bool.true_and]

/-- Settles O6: each field is a run of the word's bits. -/
theorem fieldsAreTheBitsOfTheWord : Obligations.FieldsAreTheBitsOfTheWord := fun w =>
  ⟨fun k hk => by rw [opcodeOf, getLsbD_field w 0 7 hk, Nat.zero_add], fun _ => getLsbD_field w 7 5,
    fun _ => getLsbD_field w 12 3, fun _ => getLsbD_field w 15 5, fun _ => getLsbD_field w 20 5, fun _ => getLsbD_field w 25 7⟩

/-- The sign-extended value's bits: the field's own, then copies of its top bit (R10). -/
theorem getLsbD_sext (v : BitVec n) (hk : k < 32) : (sext v).getLsbD k = if k < n then v.getLsbD k else v.getLsbD (n - 1) := by
  rw [sext, BitVec.getLsbD_signExtend, decide_eq_true hk, Bool.true_and, BitVec.msb_eq_getLsbD_last]

theorem toInt_sext (v : BitVec n) (hn : n ≤ 32) : (sext v).toInt = v.toInt := BitVec.toInt_signExtend_of_le hn

/-- A twelve-bit immediate's range (R78, R79). -/
theorem sext_range (v : BitVec 12) : -2048 ≤ (sext v).toInt ∧ (sext v).toInt ≤ 2047 := by
  rw [toInt_sext v (by decide)]
  have low := v.le_toInt
  have high := v.toInt_lt
  omega

theorem immGen_of_formatI (h : opcodeOf w = opOPIMM ∨ opcodeOf w = opLOAD ∨ opcodeOf w = opJALR) :
    immGen w = immI (immIOf w) :=
  if_pos h

theorem immGen_lui (h : opcodeOf w = opLUI) : immGen w = immU (immUOf w) := by
  simp [immGen, h, opOPIMM, opLOAD, opJALR, opSTORE, opBRANCH, opLUI]

theorem immGen_of_no_format (h : opcodeOf w ∉ [opOPIMM, opLOAD, opJALR, opSTORE, opBRANCH, opLUI]) : immGen w = 0#32 := by
  simp only [List.mem_cons, List.not_mem_nil, or_false, not_or] at h
  simp [immGen, h]

theorem getLsbD_immI (hk : k < 32) :
    (immI (immIOf w)).getLsbD k = if k < 11 then w.getLsbD (20 + k) else w.getLsbD 31 := by
  rw [immI, getLsbD_sext _ hk]
  simp only [immIOf, BitVec.getLsbD_extractLsb']
  interval_cases k <;> simp

theorem getLsbD_immS (hk : k < 32) : (immS (immSOf w)).getLsbD k =
    if k < 5 then w.getLsbD (7 + k) else if k < 11 then w.getLsbD (20 + k) else w.getLsbD 31 := by
  rw [immS, getLsbD_sext _ hk]
  simp only [immSOf, BitVec.getLsbD_append, BitVec.getLsbD_extractLsb']
  interval_cases k <;> simp

theorem getLsbD_immB (hk : k < 32) : (immB (immBOf w)).getLsbD k =
    if k = 0 then false
    else if k < 5 then w.getLsbD (7 + k)
    else if k < 11 then w.getLsbD (20 + k)
    else if k = 11 then w.getLsbD 7
    else w.getLsbD 31 := by
  rw [immB, getLsbD_sext _ hk]
  simp only [immBOf, BitVec.getLsbD_append, BitVec.getLsbD_extractLsb']
  interval_cases k <;> simp

theorem getLsbD_immU (hk : k < 32) : (immU (immUOf w)).getLsbD k = if k < 12 then false else w.getLsbD k := by
  rw [immU, BitVec.getLsbD_append, BitVec.getLsbD_zero]
  split_ifs with hlow
  · rfl
  · rw [immUOf, getLsbD_field w 12 20 (by omega), Nat.add_sub_cancel' (by omega)]

/-- Settles O7: each opcode's immediate is its format's, and the range is that of twelve bits. -/
theorem immediatesAreTheRulesBits : Obligations.ImmediatesAreTheRulesBits := by
  intro w
  refine ⟨fun h => ?_, fun h => ?_, fun h k hk => ?_, immGen_of_no_format⟩
  · rw [immGen_of_formatI h]
    exact ⟨fun k hk => getLsbD_immI hk, sext_range _⟩
  · rw [immGen_store h]
    exact ⟨fun k hk => getLsbD_immS hk, sext_range _⟩
  · rw [immGen_lui h, getLsbD_immU hk]

theorem toInt_even_of_toNat_even {v : Word} (h : v.toNat % 2 = 0) : v.toInt % 2 = 0 := by
  rw [BitVec.toInt_eq_toNat_cond]
  split <;> omega

theorem immGen_branch_range (h : opcodeOf w = opBRANCH) :
    -4096 ≤ (immGen w).toInt ∧ (immGen w).toInt ≤ 4094 ∧ (immGen w).toInt % 2 = 0 := by
  have even := toInt_even_of_toNat_even (immGen_branch_even h)
  have value : (immGen w).toInt = (immBOf w).toInt := by rw [immGen_branch h, immB, toInt_sext _ (by decide)]
  have low := (immBOf w).le_toInt
  have high := (immBOf w).toInt_lt
  omega

/-- Settles O8: the thirteen bits of the offset are sign-extended, their last is 0, and a taken branch adds them to the pc. -/
theorem branchImmediateIsTheScrambledEvenOffset : Obligations.BranchImmediateIsTheScrambledEvenOffset := by
  intro w h
  refine ⟨fun k hk => ?_, immGen_branch_range h, fun s hne => ?_⟩
  · rw [immGen_branch h, getLsbD_immB hk]
  · refine ⟨s.setPc (s.pc + immGen w), ?_, rfl⟩
    rw [decodeWord_branch h, exec, execBne_eq, if_pos hne, immGen_branch h]

/-- The left shift to the top bit puts bit `k` at `32 - n + k`. -/
theorem getLsbD_shiftLeft_to_top (w : Word) (hn : n ≤ 32) (hk : k < n) :
    (w <<< (32 - n)).getLsbD (32 - n + k) = w.getLsbD k := by
  rw [BitVec.getLsbD_shiftLeft, Nat.add_sub_cancel_left, decide_eq_true (by omega), decide_eq_false (by omega), Bool.not_false,
    Bool.true_and, Bool.true_and]

/-- Settles O9: both sides keep the low `n` bits and fill the rest with bit `n - 1`. -/
theorem signExtensionIsShiftLeftThenArithmeticRight : Obligations.SignExtensionIsShiftLeftThenArithmeticRight := by
  intro n w hn hn32
  refine BitVec.eq_of_getLsbD_eq fun k hk => ?_
  rw [getLsbD_sext _ hk, BitVec.getLsbD_sshiftRight, decide_eq_false (by omega), Bool.not_false, Bool.true_and,
    BitVec.msb_eq_getLsbD_last]
  by_cases hkn : k < n
  · rw [if_pos hkn, if_pos (by omega), getLsbD_shiftLeft_to_top w hn32 hkn, BitVec.getLsbD_setWidth, decide_eq_true hkn,
      Bool.true_and]
  · have top : 32 - 1 = 32 - n + (n - 1) := by omega
    rw [if_neg hkn, if_neg (by omega), top, getLsbD_shiftLeft_to_top w hn32 (by omega), BitVec.getLsbD_setWidth,
      decide_eq_true (by omega), Bool.true_and]

end Sys2Proof.Machine
end

section
/-! SUPPORT. The six operations of the ALU (40_datapath.md R124). -/

namespace Sys2Proof.Machine

variable (a b : Word)

/-- The comparison is that of the unsigned values. -/
theorem alu_sltu : alu .sltu a b = if a.toNat < b.toNat then 1#32 else 0#32 := by
  simp only [alu, BitVec.ult, decide_eq_true_eq]

/-- The shift amount is what the low five bits hold. -/
theorem toNat_and_0x1F : (b &&& 0x1F#32).toNat = b.toNat % 32 := by
  rw [BitVec.toNat_and]
  exact Nat.and_two_pow_sub_one_eq_mod b.toNat 5

theorem getLsbD_alu_sra {k : Nat} (hk : k < 32) : (alu .sra a b).getLsbD k =
    if k + b.toNat % 32 < 32 then a.getLsbD (k + b.toNat % 32) else a.getLsbD 31 := by
  rw [alu, toNat_and_0x1F, BitVec.getLsbD_sshiftRight, decide_eq_false (Nat.not_le.mpr hk), Bool.not_false, Bool.true_and,
    BitVec.msb_eq_getLsbD_last, Nat.add_comm k]

/-- Settles O10: the library's laws give the first four operations, `alu_sltu` and `getLsbD_alu_sra` the other two. -/
theorem aluPrimitiveOperations : Obligations.AluPrimitiveOperations := fun a b =>
  ⟨fun _ _ => BitVec.getLsbD_and, fun _ _ => BitVec.getLsbD_or, BitVec.toNat_add a b,
    by rw [alu, BitVec.toNat_sub, Nat.add_comm], alu_sltu a b, fun _ hk => getLsbD_alu_sra a b hk⟩

end Sys2Proof.Machine
end

section
/-! SUPPORT. The stages of a cycle that completes: execute, writeback, pc arbitrator (40_datapath.md R111, R120 to R126, R135 to
R142). -/

namespace Sys2Proof.Machine

variable {s t : State} {c : ControlVector} {f : Fields} {imm a b pc v : Word} {ex : ExecuteOut} {op : AluOp} {rd : RegIdx}
  {zero : Bool}

/-- Everything an execute stage that completes gives: its selector completed, and its outputs are those of the operands. -/
theorem executeStage_eq_ok_iff : executeStage c f imm a b = .ok ex ↔ ∃ op, select c.aluOp f = .ok op ∧
    ex = ⟨if c.luiSel = true then imm else alu op a (operandB c imm b), decide (a = operandB c imm b)⟩ := by
  unfold executeStage
  cases select c.aluOp f with
  | error e => simp
  | ok op => simp [zeroFlag_eq, eq_comm (a := ex)]

theorem executeStage_error {e : StageStop} (h : select c.aluOp f = .error e) : executeStage c f imm a b = .error e := by
  rw [executeStage, h]

/-- Without the branch signal the flag is not looked at (R125, R141). -/
theorem nextPcOf_of_no_branch (h : c.branch = false) (zero' : Bool) : nextPcOf c zero pc imm a = nextPcOf c zero' pc imm a := by
  simp only [nextPcOf, branchTaken, h, Bool.false_and]

theorem nextPcOf_indirect (h : c.nextPc = .indirect) : nextPcOf c zero pc imm a = indirectTarget a imm := by
  simp only [nextPcOf, h]

theorem nextPcOf_seq (h : c.nextPc = .seq) :
    nextPcOf c zero pc imm a = if c.branch = true ∧ zero = false then pc + imm else pc + 4#32 := by
  simp only [nextPcOf, h, branchTaken, Bool.and_eq_true, Bool.not_eq_true']

/-- Settles O11: the flag of a completed stage is equality, and a vector without a branch does not pass it on. -/
theorem zeroFlagIsEqualityOfTheOperands : Obligations.ZeroFlagIsEqualityOfTheOperands := by
  refine ⟨fun c f imm a b ex hex => ?_, fun c pc imm a hbranch => nextPcOf_of_no_branch hbranch false⟩
  obtain ⟨op, -, rfl⟩ := executeStage_eq_ok_iff.mp hex
  exact decide_eq_true_iff

/-- Settles O12: the multiplexer of a completed stage, and LUI's row, whose class selects in every case. -/
theorem executeOutputIsAluResultOrUpperImmediate : Obligations.ExecuteOutputIsAluResultOrUpperImmediate := by
  refine ⟨fun c f imm a b ex hex => ?_, fun f imm a b hop => ?_⟩
  · obtain ⟨op, hselect, rfl⟩ := executeStage_eq_ok_iff.mp hex
    exact ⟨fun hlui => if_pos hlui, fun hlui => ⟨op, hselect, if_neg (by simp [hlui])⟩⟩
  · rw [hop]
    exact ⟨_, executeStage_eq_ok_iff.mpr ⟨.add, rfl, rfl⟩, rfl⟩

/-- The target's bits: the mask clears bit 0 and no other (R140). -/
theorem getLsbD_indirectTarget {k : Nat} (hk : k < 32) :
    (indirectTarget a imm).getLsbD k = (decide (k ≠ 0) && (a + imm).getLsbD k) := by
  have mask : (0xFFFFFFFE#32).getLsbD k = decide (k ≠ 0) := by
    interval_cases k <;> rfl
  rw [indirectTarget, BitVec.getLsbD_and, mask, Bool.and_comm]

/-- No row asks for a branch and an indirect jump at once, since the two have different opcodes (R107). -/
theorem controlTable_one_request (op : Opcode) : ¬ ((controlTable op).branch = true ∧ (controlTable op).nextPc = .indirect) := by
  obtain ⟨-, -, -, hbranch, hindirect⟩ := controlTable_enables op
  rw [hbranch, hindirect]
  rintro ⟨rfl, h⟩
  exact absurd h (by decide)

/-- A completed cycle's pc is the arbitrator's, on the equality of the ALU's operands. -/
theorem cycle_next_pc (h : cycle s = .next t) :
    t.pc = nextPcOf (controlTable (opcodeOf s.fetch)) (decide (s.readReg (rs1Of s.fetch) =
      operandB (controlTable (opcodeOf s.fetch)) (immGen s.fetch) (s.readReg (rs2Of s.fetch))))
      s.pc (immGen s.fetch) (s.readReg (rs1Of s.fetch)) := by
  obtain ⟨-, ex, mem, hex, -, rfl⟩ := cycle_next h
  obtain ⟨op, -, rfl⟩ := executeStage_eq_ok_iff.mp hex
  rfl

/-- Settles O13: the arbitrator's two selects, the control table's rows, and what a completed cycle leaves in the pc. -/
theorem pcArbitratorChoosesOneOfThree : Obligations.PcArbitratorChoosesOneOfThree := by
  refine ⟨fun c zero pc imm a => ⟨fun hindirect k hk => ?_, fun hseq hbranch hzero => ?_, fun hseq hnot => ?_⟩,
    controlTable_one_request, fun s t hcycle => cycle_next_pc hcycle⟩
  · rw [nextPcOf_indirect hindirect, getLsbD_indirectTarget hk]
  · rw [nextPcOf_seq hseq, if_pos ⟨hbranch, hzero⟩]
  · rw [nextPcOf_seq hseq, if_neg]
    rintro ⟨hbranch, hzero⟩
    simp [hbranch, hzero] at hnot

theorem writebackStage_suppressed (h : c.regWrite = false ∨ rd = 0#5) : writebackStage c rd v s = s := by
  refine if_neg ?_
  obtain h | h := h <;> simp [writebackEnable, h]

/-- Settles O14: a completed cycle's registers are those that the writeback stage leaves. -/
theorem writebackWritesOnlyRdWhenEnabled : Obligations.WritebackWritesOnlyRdWhenEnabled := by
  intro s t hcycle
  obtain ⟨-, ex, mem, hex, hmem, rfl⟩ := cycle_next hcycle
  refine ⟨fun hoff r => ?_, fun hon => ⟨ex, mem, hex, hmem, fun r => ?_⟩⟩
  · rw [writebackStage_suppressed hoff, readReg_setPc, readReg_setDmem]
  · rw [writebackStage_enabled _ _ _ _ hon, readReg_setPc, readReg_writeReg, readReg_setDmem]
    rfl

end Sys2Proof.Machine
end

section
/-! SUPPORT. Running the decoded instruction is the cycle of the datapath (40_datapath.md R100 to R103, R107, R145). -/

namespace Sys2Proof.Machine

variable {s : State}

/-- Settles O17: the fetched word is the four bytes that the stream decoder reads. -/
theorem stepRunsTheDecodedInstruction : Obligations.StepRunsTheDecodedInstruction := by
  refine fun s => ⟨fun i hfit hdecode => ?_, fun hnot => ?_⟩
  · rw [decode, leWord_four, ← fetch_of_fits hfit] at hdecode
    cases hdecode
    rfl
  · rw [step, fetch_of_not_fits hnot]
    rfl

@[simp] theorem fieldDecode_opcode (w : Word) : (fieldDecode w).opcode = opcodeOf w := rfl
@[simp] theorem fieldDecode_rd (w : Word) : (fieldDecode w).rd = rdOf w := rfl
@[simp] theorem fieldDecode_funct3 (w : Word) : (fieldDecode w).funct3 = funct3Of w := rfl
@[simp] theorem fieldDecode_rs1 (w : Word) : (fieldDecode w).rs1 = rs1Of w := rfl
@[simp] theorem fieldDecode_rs2 (w : Word) : (fieldDecode w).rs2 = rs2Of w := rfl
@[simp] theorem fieldDecode_funct7 (w : Word) : (fieldDecode w).funct7 = funct7Of w := rfl

/-- Class 10 without OP-IMM's opcode (R121). -/
theorem select_register {f : Fields} (h : f.opcode ≠ opOPIMM) : select 0b10 f = selectRegister f.funct7 f.funct3 := by
  simp [select, h]

/-- Class 10 with OP-IMM's opcode (R122). -/
theorem select_immediate {f : Fields} (h : f.opcode = opOPIMM) : select 0b10 f = selectImmediate f.funct3 := by
  simp [select, h]

variable {w : Word}

/-- The decoder and the selector make the same choice under OP (R85, R121). -/
theorem decodeOp_selectRegister (w : Word) (s : State) :
    (∃ op, selectRegister (funct7Of w) (funct3Of w) = .ok op ∧
      exec (decodeOp w) s = aluRegister op (rdOf w) (rs1Of w) (rs2Of w) s) ∨
    selectRegister (funct7Of w) (funct3Of w) = .error (.unsupported .opFunct) ∧
      exec (decodeOp w) s = unsupported .opFunct := by
  unfold decodeOp selectRegister
  split_ifs
  · exact .inl ⟨.add, rfl, rfl⟩
  · exact .inl ⟨.sub, rfl, rfl⟩
  · exact .inl ⟨.sra, rfl, rfl⟩
  · exact .inl ⟨.and, rfl, rfl⟩
  · exact .inr ⟨rfl, rfl⟩

/-- The decoder and the selector make the same choice under OP-IMM, though they test for it in another order (R86, R122). -/
theorem decodeOpimm_selectImmediate (w : Word) (s : State) :
    (∃ op, selectImmediate (funct3Of w) = .ok op ∧
      exec (decodeOpimm w) s = aluImmediate op (rdOf w) (rs1Of w) (immIOf w) s) ∨
    selectImmediate (funct3Of w) = .error (.unsupported .opimmFunct3) ∧
      exec (decodeOpimm w) s = unsupported .opimmFunct3 := by
  unfold decodeOpimm selectImmediate
  split_ifs with haddi hori hsltiu
  · exact .inl ⟨.add, rfl, rfl⟩
  · exact absurd (hori.symm.trans hsltiu) (by decide)
  · exact .inl ⟨.or, rfl, rfl⟩
  · exact .inl ⟨.sltu, rfl, rfl⟩
  · exact .inr ⟨rfl, rfl⟩

/-- The decoder and the memory stage give a load the same width and extension (R87, R133). -/
theorem decodeLoad_loadStage (h : opcodeOf w = opLOAD) (s : State) :
    (∃ v, loadStage s.memSize (funct3Of w) (s.dataAddr (rs1Of w) (immGen w)) s.dmem = .ok ⟨s.dmem, v⟩ ∧
      exec (decodeLoad w) s = retire (rdOf w) v s) ∨
    loadStage s.memSize (funct3Of w) (s.dataAddr (rs1Of w) (immGen w)) s.dmem = .error (.unsupported .loadWidth) ∧
      exec (decodeLoad w) s = unsupported .loadWidth := by
  rw [immGen_of_formatI (.inr (.inl h))]
  unfold decodeLoad loadStage
  split_ifs
  · refine .inl ⟨_, rfl, ?_⟩
    rw [exec, execLb, loadData_one_setWidth]
    rfl
  · exact .inl ⟨_, rfl, rfl⟩
  · refine .inl ⟨_, rfl, ?_⟩
    rw [exec, execLbu, loadData_one_setWidth]
    rfl
  · exact .inr ⟨rfl, rfl⟩

/-- The decoder and the memory stage give a store the same width (R87, R132). -/
theorem decodeStore_storeStage (h : opcodeOf w = opSTORE) (s : State) :
    (∃ m, storeStage s.memSize (funct3Of w) (s.dataAddr (rs1Of w) (immGen w)) (s.readReg (rs2Of w)) s.dmem = .ok ⟨m, 0#32⟩ ∧
      exec (decodeStore w) s = .next (s.setDmem m).advance) ∨
    storeStage s.memSize (funct3Of w) (s.dataAddr (rs1Of w) (immGen w)) (s.readReg (rs2Of w)) s.dmem =
        .error (.unsupported .storeWidth) ∧
      exec (decodeStore w) s = unsupported .storeWidth := by
  rw [immGen_store h]
  unfold decodeStore storeStage
  split_ifs
  · exact .inl ⟨_, rfl, rfl⟩
  · exact .inl ⟨_, rfl, rfl⟩
  · exact .inr ⟨rfl, rfl⟩

/-- What the execute stage gives for the fetched word, under a control vector and a selected operation (R111, R124 to R126). -/
def State.executeOut (s : State) (c : ControlVector) (aluOp : AluOp) : ExecuteOut :=
  let a := s.readReg (rs1Of s.fetch)
  let b := operandB c (immGen s.fetch) (s.readReg (rs2Of s.fetch))
  ⟨if c.luiSel = true then immGen s.fetch else alu aluOp a b, decide (a = b)⟩

/-- What the memory stage gives for the fetched word after that execute stage (R130). -/
def State.memoryOut (s : State) (c : ControlVector) (aluOp : AluOp) : Except StageStop MemoryOut :=
  memoryStage s.memSize c (funct3Of s.fetch) (s.executeOut c aluOp).exOut (s.readReg (rs2Of s.fetch)) s.dmem

theorem executeStage_fetch {c : ControlVector} {aluOp : AluOp} (h : select c.aluOp (fieldDecode s.fetch) = .ok aluOp) :
    executeStage c (fieldDecode s.fetch) (immGen s.fetch) (s.readReg (rs1Of s.fetch)) (s.readReg (rs2Of s.fetch)) =
      .ok (s.executeOut c aluOp) :=
  executeStage_eq_ok_iff.mpr ⟨aluOp, h, rfl⟩

section StagesOfACycle

variable {op : Opcode} {aluOp : AluOp} {e : StageStop} {mem : MemoryOut} {v : Word} (h0 : s.fetch ≠ 0#32)
  (hop : opcodeOf s.fetch = op)

include h0 hop

theorem cycle_of_select_error (hselect : select (controlTable op).aluOp (fieldDecode s.fetch) = .error e) :
    cycle s = e.outcome := by
  simp [cycle, h0, hop, executeStage_error hselect]

variable (hselect : select (controlTable op).aluOp (fieldDecode s.fetch) = .ok aluOp)

include hselect

theorem cycle_of_memory_error (hmem : s.memoryOut (controlTable op) aluOp = .error e) : cycle s = e.outcome := by
  rw [State.memoryOut] at hmem
  simp [cycle, h0, hop, executeStage_fetch hselect, hmem]

/-- The converse of `cycle_next`. -/
theorem cycle_of_stages (hmem : s.memoryOut (controlTable op) aluOp = .ok mem) :
    cycle s = .next ((writebackStage (controlTable op) (rdOf s.fetch)
      (writebackData (controlTable op) s.pc (s.executeOut (controlTable op) aluOp).exOut mem.rdata) (s.setDmem mem.dmem)).setPc
        (nextPcOf (controlTable op) (s.executeOut (controlTable op) aluOp).zero s.pc (immGen s.fetch)
          (s.readReg (rs1Of s.fetch)))) := by
  rw [State.memoryOut] at hmem
  simp [cycle, h0, hop, executeStage_fetch hselect, hmem]

/-- A cycle that completes, leaves data memory alone, writes `rd` and falls through. -/
theorem cycle_retires (hmem : s.memoryOut (controlTable op) aluOp = .ok ⟨s.dmem, v⟩)
    (hwrite : (controlTable op).regWrite = true) (hseq : (controlTable op).nextPc = .seq)
    (hbranch : (controlTable op).branch = false) : (cycle s).report s =
      retire (rdOf s.fetch) (writebackData (controlTable op) s.pc (s.executeOut (controlTable op) aluOp).exOut v) s := by
  rw [cycle_of_stages h0 hop hselect hmem, writebackStage_enabled _ _ _ _ hwrite, nextPcOf_seq hseq, if_neg (by simp [hbranch]),
    setDmem_self, retire_next, State.advance, writeReg_pc]
  rfl

end StagesOfACycle

theorem controlTable_unrecognised {op : Opcode} (h : recognised op = false) : controlTable op = .disabled := by
  revert op; decide

section StepByOpcode

variable (h0 : s.fetch ≠ 0#32)

include h0

theorem step_eq_cycle_of_op (h : opcodeOf s.fetch = opOP) : step s = (cycle s).report s := by
  have hclass := select_register (f := fieldDecode s.fetch) (by rw [fieldDecode_opcode, h]; decide)
  rw [step, decodeWord_op h]
  obtain ⟨op, hselect, hexec⟩ | ⟨hselect, hexec⟩ := decodeOp_selectRegister s.fetch s
  · rw [hexec, cycle_retires h0 h (hclass.trans hselect) rfl rfl rfl rfl]
    rfl
  · rw [hexec, cycle_of_select_error h0 h (hclass.trans hselect)]
    rfl

theorem step_eq_cycle_of_opimm (h : opcodeOf s.fetch = opOPIMM) : step s = (cycle s).report s := by
  have hclass := select_immediate (f := fieldDecode s.fetch) h
  rw [step, decodeWord_opimm h]
  obtain ⟨op, hselect, hexec⟩ | ⟨hselect, hexec⟩ := decodeOpimm_selectImmediate s.fetch s
  · rw [hexec, cycle_retires h0 h (hclass.trans hselect) rfl rfl rfl rfl, aluImmediate, ← immGen_of_formatI (.inl h)]
    rfl
  · rw [hexec, cycle_of_select_error h0 h (hclass.trans hselect)]
    rfl

theorem step_eq_cycle_of_lui (h : opcodeOf s.fetch = opLUI) : step s = (cycle s).report s := by
  rw [step, decodeWord_lui h, cycle_retires (aluOp := .add) h0 h rfl rfl rfl rfl rfl, exec, execLui, ← immGen_lui h]
  rfl

theorem step_eq_cycle_of_load (h : opcodeOf s.fetch = opLOAD) : step s = (cycle s).report s := by
  rw [step, decodeWord_load h]
  obtain ⟨v, hmem, hexec⟩ | ⟨hmem, hexec⟩ := decodeLoad_loadStage h s
  · rw [hexec, cycle_retires (aluOp := .add) h0 h rfl hmem rfl rfl rfl]
    rfl
  · rw [hexec, cycle_of_memory_error (aluOp := .add) h0 h rfl hmem]
    rfl

theorem step_eq_cycle_of_store (h : opcodeOf s.fetch = opSTORE) : step s = (cycle s).report s := by
  rw [step, decodeWord_store h]
  obtain ⟨m, hmem, hexec⟩ | ⟨hmem, hexec⟩ := decodeStore_storeStage h s
  · rw [hexec, cycle_of_stages (aluOp := .add) h0 h rfl hmem]
    rfl
  · rw [hexec, cycle_of_memory_error (aluOp := .add) h0 h rfl hmem]
    rfl

theorem step_eq_cycle_of_branch (h : opcodeOf s.fetch = opBRANCH) : step s = (cycle s).report s := by
  have htaken : (controlTable opBRANCH).branch = true ∧ (s.executeOut (controlTable opBRANCH) .sub).zero = false ↔
      s.readReg (rs1Of s.fetch) ≠ s.readReg (rs2Of s.fetch) := (and_iff_right rfl).trans decide_eq_false_iff_not
  rw [step, decodeWord_branch h, exec, execBne_eq, ← immGen_branch h, cycle_of_stages (aluOp := .sub) h0 h rfl rfl,
    nextPcOf_seq rfl]
  simp only [htaken]
  rfl

theorem step_eq_cycle_of_jalr (h : opcodeOf s.fetch = opJALR) : step s = (cycle s).report s := by
  rw [step, decodeWord_jalr h, exec, execJalr, ← immGen_jalr h, cycle_of_stages (aluOp := .add) h0 h rfl rfl,
    writebackStage_enabled _ _ _ _ rfl]
  rfl

theorem step_eq_cycle_of_unrecognised (h : recognised (opcodeOf s.fetch) = false) : step s = (cycle s).report s := by
  have hrow := controlTable_unrecognised h
  have hselect : select (controlTable (opcodeOf s.fetch)).aluOp (fieldDecode s.fetch) = .ok .add := by rw [hrow]; rfl
  have hmem : s.memoryOut (controlTable (opcodeOf s.fetch)) .add = .ok ⟨s.dmem, 0#32⟩ := by rw [hrow]; rfl
  rw [step, decodeWord_unrecognised h0 h, cycle_of_stages h0 rfl hselect hmem, hrow]
  rfl

end StepByOpcode

/-- Settles O15, by the decoder's cases: under each opcode the control table's row makes the stages do what the instruction does. -/
theorem stepIsTheDatapathCycle : Obligations.StepIsTheDatapathCycle := by
  intro s
  obtain h0 | h0 := eq_or_ne s.fetch 0#32
  · rw [step, h0, (cycle_halt_iff s).mpr h0]
    rfl
  obtain hw | h | h | h | h | h | h | h | ⟨-, h⟩ := word_cases s.fetch
  · exact absurd hw h0
  · exact step_eq_cycle_of_op h0 h
  · exact step_eq_cycle_of_opimm h0 h
  · exact step_eq_cycle_of_lui h0 h
  · exact step_eq_cycle_of_load h0 h
  · exact step_eq_cycle_of_store h0 h
  · exact step_eq_cycle_of_branch h0 h
  · exact step_eq_cycle_of_jalr h0 h
  · exact step_eq_cycle_of_unrecognised h0 h

end Sys2Proof.Machine
end

section
/-! SUPPORT. The register-register instructions: the value each of them retires with, and its frame (41_alu_register.md). -/

namespace Sys2Proof.Machine

variable (rd rs1 rs2 : RegIdx) (v : Word) (s : State)

/-- The frame of every register-writing instruction that falls through (R135, R142, R164, R174). -/
theorem retire_completes : ∃ t, retire rd v s = .next t ∧
    WritesOnly rd v s t ∧ t.pc = s.pc + 4#32 ∧ SameData s t ∧ SameInstructions s t :=
  ⟨_, retire_next s rd v, retire_writesOnly s rd v, by rw [advance_pc, writeReg_pc], retire_sameMemories s rd v⟩

theorem exec_add : exec (.add rd rs1 rs2) s = retire rd (s.readReg rs1 + s.readReg rs2) s := rfl

theorem exec_sub : exec (.sub rd rs1 rs2) s = retire rd (s.readReg rs1 - s.readReg rs2) s := rfl

theorem exec_and : exec (.and rd rs1 rs2) s = retire rd (s.readReg rs1 &&& s.readReg rs2) s := rfl

theorem exec_sra : exec (.sra rd rs1 rs2) s = retire rd (alu .sra (s.readReg rs1) (s.readReg rs2)) s := rfl

/-- The arithmetic shift divides the signed value, rounding towards minus infinity. -/
theorem alu_sra (a b : Word) : alu .sra a b = BitVec.ofInt 32 (a.toInt / 2 ^ (b.toNat % 32)) := by
  rw [alu, toNat_and_0x1F, BitVec.sshiftRight, Int.shiftRight_eq_div_pow, Nat.cast_pow, Nat.cast_ofNat]

/-- Settles O20: ADD retires with the sum. -/
theorem addWritesTheSum : Obligations.AddWritesTheSum := fun rd rs1 rs2 s => by
  rw [exec_add]
  exact retire_completes rd _ s

/-- Settles O21: SUB retires with the difference. -/
theorem subWritesTheDifference : Obligations.SubWritesTheDifference := fun rd rs1 rs2 s => by
  rw [exec_sub]
  exact retire_completes rd _ s

/-- Settles O22: SRA retires with the ALU's shift, which `alu_sra` reads as the quotient rounded down. -/
theorem sraWritesTheArithmeticShift : Obligations.SraWritesTheArithmeticShift := fun rd rs1 rs2 s => by
  rw [exec_sra, alu_sra]
  exact retire_completes rd _ s

/-- Settles O23: AND retires with the bitwise and. -/
theorem andWritesTheBitwiseAnd : Obligations.AndWritesTheBitwiseAnd := fun rd rs1 rs2 s => by
  rw [exec_and]
  exact retire_completes rd _ s

end Sys2Proof.Machine
end

section
/-! SUPPORT. The register-immediate instructions and LUI: the value each of them retires with (42_alu_immediate.md). -/

namespace Sys2Proof.Machine

variable (rd rs1 : RegIdx) (imm : BitVec 12) (imm20 : BitVec 20) (s : State)

/-- Sign extension keeps the signed value (R10, R78). -/
theorem immI_eq_ofInt : immI imm = BitVec.ofInt 32 imm.toInt := rfl

/-- Twelve zero bits below the field multiply it by 2^12; the product fits a word (R81). -/
theorem immU_eq_ofNat : immU imm20 = BitVec.ofNat 32 (imm20.toNat * 2 ^ 12) := by
  apply BitVec.eq_of_toNat_eq
  have product_fits : imm20.toNat * 2 ^ 12 < 2 ^ 32 := by omega
  rw [immU, BitVec.toNat_append, BitVec.toNat_ofNat, Nat.zero_mod, Nat.or_zero, Nat.shiftLeft_eq,
    BitVec.toNat_ofNat, Nat.mod_eq_of_lt product_fits]

theorem exec_addi : exec (.addi rd rs1 imm) s = retire rd (s.readReg rs1 + immI imm) s := rfl

theorem exec_sltiu : exec (.sltiu rd rs1 imm) s = retire rd (alu .sltu (s.readReg rs1) (immI imm)) s := rfl

theorem exec_ori : exec (.ori rd rs1 imm) s = retire rd (s.readReg rs1 ||| immI imm) s := rfl

theorem exec_lui : exec (.lui rd imm20) s = retire rd (immU imm20) s := rfl

/-- Settles O24: ADDI retires with the sum of the source and the immediate's signed value. -/
theorem addiAddsTheSignedImmediate : Obligations.AddiAddsTheSignedImmediate := fun rd rs1 imm s => by
  rw [exec_addi, immI_eq_ofInt]
  exact retire_completes rd _ s

/-- Settles O25: SLTIU retires with the ALU's comparison, which `alu_sltu` reads as that of the unsigned values. -/
theorem sltiuComparesUnsigned : Obligations.SltiuComparesUnsigned := fun rd rs1 imm s => by
  rw [exec_sltiu, alu_sltu, immI_eq_ofInt]
  exact retire_completes rd _ s

/-- Settles O26: ORI retires with the bitwise or of the source and the sign-extended immediate. -/
theorem oriOrsTheSignedImmediate : Obligations.OriOrsTheSignedImmediate := fun rd rs1 imm s => by
  rw [exec_ori, immI_eq_ofInt]
  exact retire_completes rd _ s

/-- Settles O27: LUI retires with its immediate, which `immU_eq_ofNat` reads as the product. -/
theorem luiWritesTheUpperImmediate : Obligations.LuiWritesTheUpperImmediate := fun rd imm20 s => by
  rw [exec_lui, immU_eq_ofNat]
  exact retire_completes rd _ s

end Sys2Proof.Machine
end

section
/-! SUPPORT. The loads and stores: the value a load retires with, and the frame of a store (43_load_store.md). -/

namespace Sys2Proof.Machine

/-- The frame of a store that fits and of one that is dropped (R47, R142, R185). -/
theorem stored_frame (s : State) (a n : Nat) (w : Word) : SameRegisters s (s.stored a n w) ∧
    (s.stored a n w).pc = s.pc + 4#32 ∧ SameInstructions s (s.stored a n w) :=
  ⟨fun _ => rfl, rfl, rfl, fun _ => rfl⟩

/-- Settles O28: LW retires with what `loadData_four` says of a word load, the four bytes or 0. -/
theorem lwLoadsFourBytesOrZero : Obligations.LwLoadsFourBytesOrZero := fun rd rs1 imm s => by
  rw [exec_lw, loadData_four, ← retire_next]
  exact retire_completes rd _ s

/-- Settles O29: LB retires with the signed value of its byte, which is always inside the memory. -/
theorem lbLoadsASignedByte : Obligations.LbLoadsASignedByte := fun rd rs1 imm s => by
  rw [exec_lb, ← retire_next]
  exact retire_completes rd _ s

/-- Settles O30: LBU retires with the unsigned value of its byte, which is always inside the memory. -/
theorem lbuLoadsAnUnsignedByte : Obligations.LbuLoadsAnUnsignedByte := fun rd rs1 imm s => by
  rw [exec_lbu, ← retire_next]
  exact retire_completes rd _ s

/-- Settles O31: SW is a store of four bytes, whose effect on every byte is `storeData_dataByte`. -/
theorem swStoresFourBytesOrNothing : Obligations.SwStoresFourBytesOrNothing := by
  intro rs2 rs1 imm s
  refine ⟨_, exec_sw rs2 rs1 imm, ?_, stored_frame s _ 4 _⟩
  rintro a rfl b
  exact storeData_dataByte s _ 4 b _

/-- Settles O32: SH is a store of two bytes, whose effect on every byte is `storeData_dataByte`. -/
theorem shStoresTwoBytesOrNothing : Obligations.ShStoresTwoBytesOrNothing := by
  intro rs2 rs1 imm s
  refine ⟨_, exec_sh rs2 rs1 imm, ?_, stored_frame s _ 2 _⟩
  rintro a rfl b
  exact storeData_dataByte s _ 2 b _

end Sys2Proof.Machine
end

section
/-! SUPPORT. BNE and JALR: the target as a number, and the frame of an instruction that sets the pc (44_control_transfer.md). -/

namespace Sys2Proof.Machine

variable (s : State) (rd : RegIdx) (v p : Word)

theorem setPc_frame : SameRegisters s (s.setPc p) ∧ SameData s (s.setPc p) ∧ SameInstructions s (s.setPc p) :=
  ⟨fun _ => rfl, fun _ => rfl, rfl, fun _ => rfl⟩

theorem writeReg_setPc_writesOnly : WritesOnly rd v s ((s.writeReg rd v).setPc p) :=
  fun r => by rw [readReg_setPc, readReg_writeReg]

theorem writeReg_setPc_sameMemories :
    SameData s ((s.writeReg rd v).setPc p) ∧ SameInstructions s ((s.writeReg rd v).setPc p) :=
  ⟨fun a => by simp, by simp, fun a => by simp⟩

/-- Sign extension keeps the signed value of a branch offset (R10, R80). -/
theorem immB_eq_ofInt (offset : BitVec 13) : immB offset = BitVec.ofInt 32 offset.toInt := rfl

/-- Clearing bit 0 drops the lowest bit and puts a 0 in its place (R140). -/
theorem indirectTarget_eq_shifts (base imm : Word) : indirectTarget base imm = (base + imm) >>> 1 <<< 1 := by
  refine BitVec.eq_of_getLsbD_eq fun k hk => ?_
  rw [getLsbD_indirectTarget hk, BitVec.getLsbD_shiftLeft, BitVec.getLsbD_ushiftRight]
  cases k with
  | zero => rfl
  | succ k => simp [hk, Nat.add_comm 1 k]

/-- As a number, the target is the sum rounded down to an even one. -/
theorem toNat_indirectTarget (base imm : Word) : (indirectTarget base imm).toNat = (base + imm).toNat / 2 * 2 := by
  have sum_fits := (base + imm).isLt
  rw [indirectTarget_eq_shifts, BitVec.toNat_shiftLeft, BitVec.toNat_ushiftRight, Nat.shiftLeft_eq, Nat.shiftRight_eq_div_pow]
  omega

/-- Settles O34: BNE is the one assignment to the pc that `execBne_eq` gives, on either side of its test. -/
theorem bneBranchesWhenUnequal : Obligations.BneBranchesWhenUnequal := by
  intro rs1 rs2 offset funct3 s
  rw [exec, execBne_eq, immB_eq_ofInt]
  exact ⟨_, rfl, fun hne => if_pos hne, fun heq => if_neg (not_not_intro heq), setPc_frame s _⟩

/-- Settles O35: JALR writes the link and sets the pc to the target of the old `x[rs1]`, whose value is
`toNat_indirectTarget`. -/
theorem jalrLinksAndJumps : Obligations.JalrLinksAndJumps := by
  intro rd rs1 imm funct3 s
  refine ⟨_, rfl, writeReg_setPc_writesOnly s rd _ _, ?_, writeReg_setPc_sameMemories s rd _ _⟩
  rw [setPc_pc, toNat_indirectTarget, immI_eq_ofInt]

end Sys2Proof.Machine
end

section
/-! SUPPORT. The abort that no cycle reaches, the halted core, unrecognised words and unlisted function codes
(45_halt_and_unrecognised.md). -/

namespace Sys2Proof.Machine

variable {s t : State} {w : Word} {i : Instr} {f7 : Funct7} {f3 : Funct3} {op : Opcode} {rd rs1 rs2 : RegIdx} {imm : BitVec 12}

/-- Class 11 alone aborts: the other classes select an operation or find none listed (R120 to R123). -/
theorem select_ne_abort {aluOp : BitVec 2} (h : aluOp ≠ 0b11) (f : Fields) : select aluOp f ≠ .error .abort := by
  have classes : aluOp = 0b00 ∨ aluOp = 0b01 ∨ aluOp = 0b10 := by
    revert aluOp; decide
  obtain rfl | rfl | rfl := classes
  · nofun
  · nofun
  · by_cases hop : f.opcode = opOPIMM
    · rw [select_immediate hop, selectImmediate]
      split_ifs <;> nofun
    · rw [select_register hop, selectRegister]
      split_ifs <;> nofun

theorem memoryStage_ne_abort (size : Nat) (c : ControlVector) (f3 : Funct3) (exOut v : Word) (m : Memory) :
    memoryStage size c f3 exOut v m ≠ .error .abort := by
  unfold memoryStage storeStage loadStage
  split_ifs <;> nofun

/-- No row has class 11 (R107, R204). -/
theorem controlTable_aluOp_ne (op : Opcode) : (controlTable op).aluOp ≠ 0b11 := by
  revert op; decide

theorem StageStop.outcome_ne_abort {e : StageStop} (h : e ≠ .abort) : e.outcome ≠ .abort := by
  cases e with
  | abort => exact absurd rfl h
  | unsupported reason => nofun

/-- A cycle that the sentinel does not end stops in the selector or in the memory stage, if at all, and neither aborts. -/
theorem cycle_ne_abort (s : State) : cycle s ≠ .abort := by
  obtain h0 | h0 := eq_or_ne s.fetch 0#32
  · rw [(cycle_halt_iff s).mpr h0]
    nofun
  cases hselect : select (controlTable (opcodeOf s.fetch)).aluOp (fieldDecode s.fetch) with
  | error e =>
    rw [cycle_of_select_error h0 rfl hselect]
    exact StageStop.outcome_ne_abort fun he => select_ne_abort (controlTable_aluOp_ne _) _ (he ▸ hselect)
  | ok aluOp =>
    cases hmem : s.memoryOut (controlTable (opcodeOf s.fetch)) aluOp with
    | error e =>
      rw [cycle_of_memory_error h0 rfl hselect hmem]
      exact StageStop.outcome_ne_abort fun he => memoryStage_ne_abort _ _ _ _ _ _ (he ▸ hmem)
    | ok mem =>
      rw [cycle_of_stages h0 rfl hselect hmem]
      nofun

theorem CycleOutcome.report_ne_fault_abort {o : CycleOutcome} (h : o ≠ .abort) (s : State) : o.report s ≠ .fault .abort := by
  cases o with
  | abort => exact absurd rfl h
  | next t => nofun
  | halt => nofun
  | unsupported reason => nofun

/-- Settles O16: no row has the one class that aborts, and a step is the cycle. -/
theorem noCycleAborts : Obligations.NoCycleAborts := by
  refine ⟨fun _ => rfl, controlTable_aluOp_ne, fun s => ⟨cycle_ne_abort s, ?_⟩⟩
  rw [stepIsTheDatapathCycle s]
  exact CycleOutcome.report_ne_fault_abort (cycle_ne_abort s) s

theorem halted_iff : s.halted = true ↔ s.fetch = 0#32 := beq_iff_eq

/-- The states reached from a halted one: itself (R35, R200). -/
theorem eq_of_reaches_halted (hhalted : s.halted = true) (hreach : Reaches s t) : t = s := by
  induction hreach with
  | refl => rfl
  | step _ hstep ih =>
    rw [ih, step_of_halted hhalted] at hstep
    cases hstep
    rfl

/-- Settles O36, by induction on the steps taken from a halted state. -/
theorem haltedCoreStaysAsItIs : Obligations.HaltedCoreStaysAsItIs := fun _ =>
  ⟨rfl, fun hnot => halted_iff.mpr (fetch_of_not_fits hnot),
    fun hhalted => ⟨step_of_halted hhalted, fun _ => eq_of_reaches_halted hhalted⟩⟩

/-- A step runs the instruction whose word is fetched. -/
theorem step_of_isWordOf (h : IsWordOf s.fetch i) : step s = exec i s := by
  obtain ⟨hwf, hword⟩ := h
  rw [step, ← hword, decodeWord_encode i hwf]

theorem recognised_eq_false_iff :
    recognised op = false ↔ op ∉ [opOP, opOPIMM, opLUI, opLOAD, opSTORE, opBRANCH, opJALR] := by
  simp [recognised, and_assoc]

theorem exec_unrecognised_completes (op : Opcode) (rest : BitVec 25) (s : State) :
    ∃ t, exec (.unrecognised op rest) s = .next t ∧
      t.pc = s.pc + 4#32 ∧ SameRegisters s t ∧ SameData s t ∧ SameInstructions s t :=
  ⟨s.advance, rfl, advance_pc s, setPc_frame s _⟩

/-- Settles O37: such a word is that of an `unrecognised` instruction, whose one effect is on the pc. -/
theorem unrecognisedWordsOnlyAdvanceThePc : Obligations.UnrecognisedWordsOnlyAdvanceThePc := by
  refine ⟨fun s h0 hop => ?_, exec_unrecognised_completes⟩
  rw [step_of_isWordOf (unrecognised_isWordOf h0 (recognised_eq_false_iff.mpr hop))]
  exact exec_unrecognised_completes _ _ s

/-! The well-formed instructions of the four kinds: the function codes that are not listed (R85 to R87, R203). -/

theorem wf_unsupportedOp_iff : (Instr.unsupportedOp f7 f3 rd rs1 rs2).wf = true ↔
    (f7, f3) ∉ [(f7ADD, f3ADD), (f7SUB, f3SUB), (f7SRA, f3SRA), (f7AND, f3AND)] := by
  simp [Instr.wf, listedOp, and_assoc, imp_iff_not_or]

theorem wf_unsupportedOpimm_iff : (Instr.unsupportedOpimm f3 rd rs1 imm).wf = true ↔ f3 ∉ [f3ADDI, f3SLTIU, f3ORI] := by
  simp [Instr.wf, listedOpimm, and_assoc]

theorem wf_unsupportedLoad_iff : (Instr.unsupportedLoad f3 rd rs1 imm).wf = true ↔ f3 ∉ [f3LB, f3LW, f3LBU] := by
  simp [Instr.wf, listedLoad, and_assoc]

theorem wf_unsupportedStore_iff : (Instr.unsupportedStore f3 rs2 rs1 imm).wf = true ↔ f3 ∉ [f3SH, f3SW] := by
  simp [Instr.wf, listedStore]

theorem step_unsupportedOp (hop : opcodeOf s.fetch = opOP)
    (h : (funct7Of s.fetch, funct3Of s.fetch) ∉ [(f7ADD, f3ADD), (f7SUB, f3SUB), (f7SRA, f3SRA), (f7AND, f3AND)]) :
    step s = unsupported .opFunct :=
  step_of_isWordOf ⟨wf_unsupportedOp_iff.mpr h, packR_eq_of_fields hop ⟨rfl, rfl⟩⟩

theorem step_unsupportedOpimm (hop : opcodeOf s.fetch = opOPIMM) (h : funct3Of s.fetch ∉ [f3ADDI, f3SLTIU, f3ORI]) :
    step s = unsupported .opimmFunct3 :=
  step_of_isWordOf ⟨wf_unsupportedOpimm_iff.mpr h, packI_eq_of_fields hop rfl⟩

theorem step_unsupportedLoad (hop : opcodeOf s.fetch = opLOAD) (h : funct3Of s.fetch ∉ [f3LB, f3LW, f3LBU]) :
    step s = unsupported .loadWidth :=
  step_of_isWordOf ⟨wf_unsupportedLoad_iff.mpr h, packI_eq_of_fields hop rfl⟩

theorem step_unsupportedStore (hop : opcodeOf s.fetch = opSTORE) (h : funct3Of s.fetch ∉ [f3SH, f3SW]) :
    step s = unsupported .storeWidth :=
  step_of_isWordOf ⟨wf_unsupportedStore_iff.mpr h, packS_eq_of_fields hop rfl⟩

/-- Settles O38: the four meanings stop, and a word with an unlisted function code is that of such an instruction. -/
theorem unsupportedFunctionCodesFault : Obligations.UnsupportedFunctionCodesFault :=
  ⟨fun _ _ _ _ _ _ _ => ⟨rfl, rfl, rfl, rfl⟩,
    fun _ => ⟨step_unsupportedOp, step_unsupportedOpimm, step_unsupportedLoad, step_unsupportedStore⟩⟩

end Sys2Proof.Machine
end

section
/-! SUPPORT. A step completes or stops on an unlisted function code (45_halt_and_unrecognised.md R203; 60_exceptions.md R210, R214). -/

namespace Sys2Proof.Machine

/-- The word has an opcode whose function code is not listed, and the reason names that kind (R203). -/
inductive UnlistedCode (w : Word) : UnsupportedReason → Prop where
  | opFunct (hop : opcodeOf w = opOP) (hcode : listedOp (funct7Of w) (funct3Of w) = false) : UnlistedCode w .opFunct
  | opimmFunct3 (hop : opcodeOf w = opOPIMM) (hcode : listedOpimm (funct3Of w) = false) : UnlistedCode w .opimmFunct3
  | loadWidth (hop : opcodeOf w = opLOAD) (hcode : listedLoad (funct3Of w) = false) : UnlistedCode w .loadWidth
  | storeWidth (hop : opcodeOf w = opSTORE) (hcode : listedStore (funct3Of w) = false) : UnlistedCode w .storeWidth

/-- Only the four kinds of R203 do not complete, and well-formedness says that their codes are unlisted. -/
theorem exec_completes_or_unlisted {w : Word} {i : Instr} (h : IsWordOf w i) (s : State) :
    (∃ t, exec i s = .next t) ∨ ∃ reason, exec i s = unsupported reason ∧ UnlistedCode w reason := by
  obtain ⟨hwf, rfl⟩ := h
  cases i with
  | unsupportedOp f7 f3 rd rs1 rs2 =>
    exact .inr ⟨_, rfl, .opFunct (by simp [encode]) (by simpa [encode, Instr.wf] using hwf)⟩
  | unsupportedOpimm f3 rd rs1 imm =>
    exact .inr ⟨_, rfl, .opimmFunct3 (by simp [encode]) (by simpa [encode, Instr.wf] using hwf)⟩
  | unsupportedLoad f3 rd rs1 imm =>
    exact .inr ⟨_, rfl, .loadWidth (by simp [encode]) (by simpa [encode, Instr.wf] using hwf)⟩
  | unsupportedStore f3 rs2 rs1 imm =>
    exact .inr ⟨_, rfl, .storeWidth (by simp [encode]) (by simpa [encode, Instr.wf] using hwf)⟩
  | bne rs1 rs2 offset f3 => exact .inl ⟨_, execBne_eq rs1 rs2 offset f3 s⟩
  | _ => exact .inl ⟨_, rfl⟩

theorem step_completes_or_unlisted (s : State) :
    (∃ t, step s = .next t) ∨ ∃ reason, step s = unsupported reason ∧ UnlistedCode s.fetch reason :=
  exec_completes_or_unlisted (decodeWord_isWordOf s.fetch) s

/-- Settles O39: a step that does not complete is one of the four faults, under the word's own unlisted code. -/
theorem stepsStopOnlyOnUnlistedFunctionCodes : Obligations.StepsStopOnlyOnUnlistedFunctionCodes := by
  intro s
  obtain ⟨t, hstep⟩ | ⟨reason, hstep, hunlisted⟩ := step_completes_or_unlisted s
  · rw [hstep]
    exact ⟨nofun, nofun⟩
  · rw [hstep]
    refine ⟨nofun, fun φ hφ => ?_⟩
    cases hφ
    cases hunlisted with
    | opFunct hop hcode => exact .inl ⟨hop, hcode, rfl⟩
    | opimmFunct3 hop hcode => exact .inr (.inl ⟨hop, hcode, rfl⟩)
    | loadWidth hop hcode => exact .inr (.inr (.inl ⟨hop, hcode, rfl⟩))
    | storeWidth hop hcode => exact .inr (.inr (.inr ⟨hop, hcode, rfl⟩))

end Sys2Proof.Machine
end

section
/-! SUPPORT. The model's own loader: where a placed word stands and what it leaves unchanged (20_memory.md R45;
70_reset_and_hazards.md R242; log 10). -/

namespace Sys2Proof.Machine

variable {s : State}

/-- The loader's address can be fetched from (R45): 0 is such an address in every memory of at least four bytes. -/
theorem placeAddr_fits (hbits : 2 ≤ s.memBits) : s.placeAddr.toNat + 4 ≤ s.memSize := by
  rw [State.placeAddr]
  split_ifs with hfits
  · omega
  · exact four_le_two_pow_iff.mpr hbits

theorem placeAddr_eq_pc (hfits : s.pc.toNat + 3 < s.memSize) : s.placeAddr = s.pc := if_pos hfits

@[simp] theorem placeWord_pc (s : State) (w : Word) : (s.placeWord w).pc = s.placeAddr := rfl

/-- Placing is a word write to instruction memory that is never dropped. -/
theorem placeWord_imem (hbits : 2 ≤ s.memBits) (w : Word) :
    (s.placeWord w).imem = memWrite s.memSize s.imem s.placeAddr.toNat 4 w :=
  (if_neg (Nat.not_lt.mpr (placeAddr_fits hbits))).symm

theorem instrByte_placeWord_inside (hbits : 2 ≤ s.memBits) (w : Word) {k : Nat} (hk : k < 4) :
    (s.placeWord w).instrByte (s.placeAddr.toNat + k) = w.extractLsb' (8 * k) 8 := by
  rw [State.instrByte, placeWord_imem hbits, read_memWrite, if_pos ⟨placeAddr_fits hbits, by omega, by omega⟩,
    Nat.add_sub_cancel_left]

theorem instrByte_placeWord_outside (hbits : 2 ≤ s.memBits) (w : Word) {a : Nat}
    (ha : a < s.placeAddr.toNat ∨ s.placeAddr.toNat + 4 ≤ a) : (s.placeWord w).instrByte a = s.instrByte a := by
  rw [State.instrByte, placeWord_imem hbits, read_memWrite, if_neg (by omega)]
  rfl

theorem fetch_placeWord (hbits : 2 ≤ s.memBits) (w : Word) : (s.placeWord w).fetch = w := by
  have hfits : (s.placeWord w).pc.toNat + 3 < (s.placeWord w).memSize := placeAddr_fits hbits
  have byte (k : Nat) (hk : k < 4) := instrByte_placeWord_inside hbits w hk
  have byte_zero := byte 0 (by decide)
  rw [Nat.add_zero] at byte_zero
  rw [fetch_of_fits hfits, placeWord_pc, byte 3 (by decide), byte 2 (by decide), byte 1 (by decide), byte_zero, word_eq_bytes]

theorem inv_placeWord (hs : s.Inv) (w : Word) : (s.placeWord w).Inv :=
  { hs with
    imem_wf := by
      rw [placeWord_imem hs.memBits_ge]
      exact memWrite_wf _ _ hs.imem_wf w }

/-- A number below 2^32 is the word it names. -/
theorem tableWord_of_lt {w : Nat} (hw : w < 2 ^ 32) : tableWord 32 w = BitVec.ofNat 32 w := by
  rw [tableWord, Nat.mod_eq_of_lt hw]

/-- Settles O19: the loader is one word write to instruction memory, at an address that fits, and a move of the pc to it. -/
theorem placedWordIsTheFetchedWord : Obligations.PlacedWordIsTheFetchedWord := by
  intro s w hw hbits
  rw [State.withFetchWord, tableWord_of_lt hw]
  exact ⟨fetch_placeWord hbits _, fun _ => rfl, fun _ => rfl, rfl, placeAddr_eq_pc,
    fun _ => instrByte_placeWord_outside hbits _, fun hs => inv_placeWord hs _⟩

end Sys2Proof.Machine
end

section
/-! SUPPORT. The turns of the host's loop: which one ends a run, and what a run that ended has reached
(45_halt_and_unrecognised.md R201; 70_reset_and_hazards.md R246, R247). -/

namespace Sys2Proof.Machine

variable {limit fuel : Nat} {s t u : State} {why : Stop}

theorem step_of_cycle_next (h : cycle s = .next t) : step s = .next t := by
  rw [stepIsTheDatapathCycle s, h]
  rfl

theorem step_of_cycle_unsupported {reason : UnsupportedReason} (h : cycle s = .unsupported reason) :
    step s = .fault (.unsupported reason) := by
  rw [stepIsTheDatapathCycle s, h]
  rfl

/-- A completed cycle keeps `MEM_SIZE`. -/
theorem cycle_keeps_memSize (h : cycle s = .next t) : t.memSize = s.memSize := by
  rw [State.memSize, State.memSize, (step_keeps_imem (step_of_cycle_next h)).2]

/-- Why a run ends at once in `s`: the pc is beyond the bound, or it is within and the core is halted or its step faults (R246,
R247). -/
inductive EndsAt (limit : Nat) (s : State) : Stop → Prop where
  | limit (hpc : limit < s.pc.toNat) : EndsAt limit s .limit
  | halt (hpc : s.pc.toNat ≤ limit) (hhalted : s.halted = true) : EndsAt limit s .halt
  | unsupported {reason : UnsupportedReason} (hpc : s.pc.toNat ≤ limit) (hstep : step s = .fault (.unsupported reason)) :
      EndsAt limit s (.unsupported reason)

theorem hostRun_of_next (hpc : s.pc.toNat ≤ limit) (hcycle : cycle s = .next t) :
    hostRun limit (fuel + 1) s = hostRun limit fuel t := by
  rw [hostRun, if_neg (Nat.not_lt.mpr hpc), hcycle]

/-- One turn of the loop: it goes on with the next state, or it ends the run where it is. -/
theorem hostRun_turn (limit fuel : Nat) (s : State) :
    (∃ t, cycle s = .next t ∧ hostRun limit (fuel + 1) s = hostRun limit fuel t) ∨
      ∃ why, EndsAt limit s why ∧ hostRun limit (fuel + 1) s = .stopped why s := by
  obtain hpc | hpc := Nat.lt_or_ge limit s.pc.toNat
  · exact .inr ⟨_, .limit hpc, if_pos hpc⟩
  · cases hcycle : cycle s with
    | next t => exact .inl ⟨t, rfl, hostRun_of_next hpc hcycle⟩
    | halt =>
      have hhalted : s.halted = true := halted_iff.mpr ((cycle_halt_iff s).mp hcycle)
      exact .inr ⟨_, .halt hpc hhalted, by rw [hostRun, if_neg (Nat.not_lt.mpr hpc), hcycle]⟩
    | abort => exact absurd hcycle (cycle_ne_abort s)
    | unsupported reason =>
      have hstep := step_of_cycle_unsupported hcycle
      exact .inr ⟨_, .unsupported hpc hstep, by rw [hostRun, if_neg (Nat.not_lt.mpr hpc), hcycle]⟩

theorem hostRun_state_of_no_next (h : ∀ t, cycle s ≠ .next t) : (hostRun limit (fuel + 1) s).state = s := by
  obtain ⟨t, hcycle, -⟩ | ⟨why, -, hrun⟩ := hostRun_turn limit fuel s
  · exact absurd hcycle (h t)
  · rw [hrun]
    rfl

/-- A cycle that completes had a word to fetch, so its pc is within every bound at or above the last address that fits (R201). -/
theorem pc_le_of_cycle_next (hlimit : s.memSize - 4 ≤ limit) (h : cycle s = .next t) : s.pc.toNat ≤ limit := by
  by_contra hbeyond
  exact (cycle_next h).1 (fetch_of_not_fits (by omega))

/-- Settles O53, by induction on the fuel: a turn that goes on is within both bounds, and any other leaves the state. -/
theorem highPcLimitsDecideNothing : Obligations.HighPcLimitsDecideNothing := by
  intro limit limit' fuel
  induction fuel with
  | zero => exact fun _ _ _ => rfl
  | succ fuel ih =>
    intro s hlimit hlimit'
    by_cases hnext : ∃ t, cycle s = .next t
    · obtain ⟨t, hcycle⟩ := hnext
      have hsize := cycle_keeps_memSize hcycle
      rw [hostRun_of_next (pc_le_of_cycle_next hlimit hcycle) hcycle,
        hostRun_of_next (pc_le_of_cycle_next hlimit' hcycle) hcycle]
      exact ih t (hsize ▸ hlimit) (hsize ▸ hlimit')
    · rw [not_exists] at hnext
      rw [hostRun_state_of_no_next hnext, hostRun_state_of_no_next hnext]

theorem reaches_of_step (hstep : step s = .next t) (hreach : Reaches t u) : Reaches s u := by
  induction hreach with
  | refl => exact .step .refl hstep
  | step _ hlast ih => exact .step ih hlast

theorem endsAt_of_hostRun_stopped (h : hostRun limit fuel s = .stopped why t) : Reaches s t ∧ EndsAt limit t why := by
  induction fuel generalizing s with
  | zero => cases h
  | succ fuel ih =>
    obtain ⟨u, hcycle, hrun⟩ | ⟨why', hends, hrun⟩ := hostRun_turn limit fuel s
    · rw [hrun] at h
      obtain ⟨hreach, hends⟩ := ih h
      exact ⟨reaches_of_step (step_of_cycle_next hcycle) hreach, hends⟩
    · rw [hrun] at h
      cases h
      exact ⟨.refl, hends⟩

/-- Settles O54: the last turn of a run that ended says where and why it ended, and none of its reasons is an abort. -/
theorem runsEndAtTheLimitAHaltOrAFault : Obligations.RunsEndAtTheLimitAHaltOrAFault := by
  intro limit fuel s t why h
  obtain ⟨hreach, hends⟩ := endsAt_of_hostRun_stopped h
  refine ⟨hreach, ?_⟩
  cases hends with
  | limit hpc => exact hpc
  | halt hpc hhalted => exact ⟨hpc, hhalted⟩
  | unsupported hpc hstep => exact ⟨hpc, hstep⟩

end Sys2Proof.Machine
end

section
/-! SUPPORT. The sample words of the spec's test vectors (95_test_vectors.md section 2). -/

namespace Sys2Proof.Machine

/-- Settles O5: the decoder evaluates on each of the eight words. -/
theorem sampleWordsDecode : Obligations.SampleWordsDecode := by
  unfold Obligations.SampleWordsDecode
  decide

end Sys2Proof.Machine
end
